-- ==== Sys2Proof/Word.lean ====
section
/-! DEFINITION. The bit-vector types of the core: the fixed widths of 00_scope.md R7 and the field
widths of 30_encoding.md R65. -/

namespace Sys2Proof

/-- An 8-bit value: a memory cell, a V register, DT, the immediate NN (R7, R65). -/
abbrev Byte := BitVec 8

/-- A 16-bit value: an opcode, pc, I, a call-stack entry (R7). -/
abbrev Word := BitVec 16

/-- A 4-bit field: the register selectors X and Y, the row count N (R9, R65). -/
abbrev Nibble := BitVec 4

/-- The 12-bit address field NNN (R9, R65). -/
abbrev Addr12 := BitVec 12

end Sys2Proof
end

