-- ==== Sys2Proof/Config.lean ====
section
/-! DEFINITION. What is fixed when a machine is constructed (00_scope.md R6), and the free values:
what the spec leaves open and no proof can see. -/

namespace Sys2Proof

/-- RNG_NEXT, a deterministic generator, with the states `set_seed` installs (00_scope.md R6, 43_alu.md
R116), as data: states and seeds are numbered. A row gives the function's value at one state, or at one
seed; where a generator has no row its value is free, under the generator's own name. Rows for all its
states give a generator whole, no row at all leaves everything about it open (log 6). -/
structure Generator where
  /-- Tells apart generators whose rows agree. -/
  name : Nat
  /-- From a state, the byte and the next state. -/
  nextRows : List (Nat × (Byte × Nat))
  /-- From a seed, the state. -/
  seedRows : List (Nat × Nat)
  deriving DecidableEq, Repr

/-- A generator of which nothing is known. -/
def Generator.unknown : Generator where
  name := 0
  nextRows := []
  seedRows := []

/-- The parameters of 00_scope.md R6. `stackDepth` is `none` for `unbounded`. `seedCount` is SEED: how
many values the type has, `none` for one value per natural number. `rngNext` is RNG_NEXT, `none` when it
is absent (log 6). -/
structure Params where
  memSize : Nat
  romStart : Nat
  width : Nat
  height : Nat
  stackDepth : Option Nat
  seedCount : Option Nat
  rngNext : Option Generator
  deriving DecidableEq, Repr

/-- The stated defaults of R6. SEED is OPEN there: every natural number is a seed (DESIGN CHOICE,
log 6). -/
def Params.standard : Params where
  memSize := 4096
  romStart := 0x200
  width := 64
  height := 32
  stackDepth := none
  seedCount := none
  rngNext := none

/-- FREE VALUE. `draw8()` (R13): the n-th random byte under the default of R116. Log 5. -/
opaque Config.draw8 : Nat → Byte

/-- FREE VALUE. How many ticks fall before a cycle while the timer task runs: "any number of ticks,
zero included" (45_delay_timer.md R133). Log 7. -/
opaque Config.ticksBefore : Nat → Nat

/-- FREE VALUE. RNG_NEXT where the generator of that name has no row: from a state, the byte and the next
state (R116). Log 6. -/
opaque Config.rngNext : Nat → Nat → Byte × Nat

/-- FREE VALUE. The state `set_seed` installs where the generator of that name has no row for the seed
(R116, 60_exceptions.md R168). Log 6. -/
opaque Config.rngOfSeed : Nat → Nat → Nat

/-- FREE VALUE. The text of the host's state dump, made from pc, I, the flag register, the
about-to-execute opcode (none when its fetch is out of range) and V0 to VF. Its "format is not
specified" (60_exceptions.md R171). Log 20. -/
opaque Config.stateDumpText : Word → Word → Byte → Option Word → List Byte → List Char

end Sys2Proof
end

