-- ==== Sys2Proof/Syntax.lean ====
section
/-! DEFINITION. The instructions: one constructor per row of spec/opcode_table.json, with the operand
fields of 30_encoding.md R64 and R65. -/

namespace Sys2Proof

/-- The sixteen instructions (00_scope.md R3, 30_encoding.md R67). Register selectors and immediates
carry their encoded widths, so an operand that no word can hold cannot be written. -/
inductive Instr where
  /-- `00E0` CLS (R91). -/
  | cls
  /-- `00EE` RET (R101). -/
  | ret
  /-- `1NNN` JP nnn (R102). -/
  | jp (nnn : Addr12)
  /-- `2NNN` CALL nnn (R103). -/
  | call (nnn : Addr12)
  /-- `3XNN` SE Vx, nn (R104). -/
  | se (x : Nibble) (nn : Byte)
  /-- `6XNN` LD Vx, nn (R111). -/
  | ldImm (x : Nibble) (nn : Byte)
  /-- `7XNN` ADD Vx, nn (R112). -/
  | addImm (x : Nibble) (nn : Byte)
  /-- `8XY2` AND Vx, Vy (R113). -/
  | andReg (x y : Nibble)
  /-- `ANNN` LD I, nnn (R121). -/
  | ldI (nnn : Addr12)
  /-- `CXNN` RND Vx, nn (R115). -/
  | rnd (x : Nibble) (nn : Byte)
  /-- `DXYN` DRW Vx, Vy, n (R93). -/
  | drw (x y n : Nibble)
  /-- `FX07` LD Vx, DT (R131). -/
  | ldVxDt (x : Nibble)
  /-- `FX15` LD DT, Vx (R132). -/
  | ldDtVx (x : Nibble)
  /-- `FX29` LD F, Vx (R122). -/
  | ldFVx (x : Nibble)
  /-- `FX33` LD B, Vx (R124). -/
  | ldBVx (x : Nibble)
  /-- `FX65` LD Vx, [I] (R125). -/
  | ldVxI (x : Nibble)
  deriving DecidableEq, Repr

end Sys2Proof
end

