-- ==== Sys2Proof/WellFormed.lean ====
section
/-! DEFINITION. The checks a machine's construction parameters, a program image and an instruction
must pass. -/

namespace Sys2Proof

/-- The constraints of 00_scope.md R6: `ROM_START < MEM_SIZE <= 65536`, `W >= 1`, `H >= 1`, and a
bounded `STACK_DEPTH` is at least 1. -/
def Params.wf (p : Params) : Bool :=
  decide (p.romStart < p.memSize) && decide (p.memSize ≤ 65536)
    && decide (1 ≤ p.width) && decide (1 ≤ p.height)
    && (match p.stackDepth with
        | none => true
        | some d => decide (1 ≤ d))

/-- An image the boot sequence may load: non-empty and no longer than `MEM_SIZE - ROM_START`
(70_reset_and_hazards.md R184). -/
def imageFits (p : Params) (bytes : List Byte) : Bool :=
  decide (bytes ≠ []) && decide (p.romStart + bytes.length ≤ p.memSize)

/-- A register selector names one of V0 to VF (10_state.md R21). -/
def Nibble.selectsRegister (r : Nibble) : Bool := decide (r.toNat < 16)

/-- The operands of an instruction lie in the ranges of 30_encoding.md R65. The field types already
hold them there, so every term of `Instr` passes (Laws: `Instr.wellFormed_eq_true`). -/
def Instr.wellFormed : Instr → Bool
  | .cls => true
  | .ret => true
  | .jp nnn => decide (nnn.toNat < 4096)
  | .call nnn => decide (nnn.toNat < 4096)
  | .se x nn => Nibble.selectsRegister x && decide (nn.toNat < 256)
  | .ldImm x nn => Nibble.selectsRegister x && decide (nn.toNat < 256)
  | .addImm x nn => Nibble.selectsRegister x && decide (nn.toNat < 256)
  | .andReg x y => Nibble.selectsRegister x && Nibble.selectsRegister y
  | .ldI nnn => decide (nnn.toNat < 4096)
  | .rnd x nn => Nibble.selectsRegister x && decide (nn.toNat < 256)
  | .drw x y n => Nibble.selectsRegister x && Nibble.selectsRegister y && decide (n.toNat < 16)
  | .ldVxDt x => Nibble.selectsRegister x
  | .ldDtVx x => Nibble.selectsRegister x
  | .ldFVx x => Nibble.selectsRegister x
  | .ldBVx x => Nibble.selectsRegister x
  | .ldVxI x => Nibble.selectsRegister x

end Sys2Proof
end

