-- ==== Sys2Proof/Decode.lean ====
section
/-! DEFINITION. The decoder, total on every word and on every byte list, and the encoder written from
the field layouts (30_encoding.md R63 to R74). -/

namespace Sys2Proof

/-! ### Fields of an opcode (00_scope.md R9, 30_encoding.md R65) -/

/-- The class nibble, `op[15:12]`. -/
def opClass (op : Word) : Nibble := op.extractLsb' 12 4

/-- `X = op[11:8]`. -/
def opX (op : Word) : Nibble := op.extractLsb' 8 4

/-- `Y = op[7:4]`. -/
def opY (op : Word) : Nibble := op.extractLsb' 4 4

/-- `N = op[3:0]`. -/
def opN (op : Word) : Nibble := op.extractLsb' 0 4

/-- `NN = op[7:0]`. -/
def opNN (op : Word) : Byte := op.extractLsb' 0 8

/-- `NNN = op[11:0]`. -/
def opNNN (op : Word) : Addr12 := op.extractLsb' 0 12

/-! ### The decoder -/

/-- The two results of decoding a word (R73). -/
inductive Decoded where
  | instr (i : Instr)
  | opcodeNotSupported (op : Word)
  deriving DecidableEq, Repr

/-- Class 0x0: exactly `00E0` and `00EE`, matched on all 16 bits (R68). -/
def decodeClass0 (op : Word) : Decoded :=
  if op = 0x00E0#16 then .instr .cls
  else if op = 0x00EE#16 then .instr .ret
  else .opcodeNotSupported op

/-- Class 0x8: exactly `8XY2`, selected by the low nibble (R69). -/
def decodeClass8 (op : Word) : Decoded :=
  if opN op = 0x2#4 then .instr (.andReg (opX op) (opY op)) else .opcodeNotSupported op

/-- Class 0xF: exactly five members, selected by the low byte (R70). -/
def decodeClassF (op : Word) : Decoded :=
  if opNN op = 0x07#8 then .instr (.ldVxDt (opX op))
  else if opNN op = 0x15#8 then .instr (.ldDtVx (opX op))
  else if opNN op = 0x29#8 then .instr (.ldFVx (opX op))
  else if opNN op = 0x33#8 then .instr (.ldBVx (opX op))
  else if opNN op = 0x65#8 then .instr (.ldVxI (opX op))
  else .opcodeNotSupported op

/-- Dispatch on the class nibble, then, inside classes 0x0, 0x8 and 0xF, on the function field
(R66). Every class and function not named is OpcodeNotSupported (R71). -/
def decode (op : Word) : Decoded :=
  if opClass op = 0x0#4 then decodeClass0 op
  else if opClass op = 0x1#4 then .instr (.jp (opNNN op))
  else if opClass op = 0x2#4 then .instr (.call (opNNN op))
  else if opClass op = 0x3#4 then .instr (.se (opX op) (opNN op))
  else if opClass op = 0x6#4 then .instr (.ldImm (opX op) (opNN op))
  else if opClass op = 0x7#4 then .instr (.addImm (opX op) (opNN op))
  else if opClass op = 0x8#4 then decodeClass8 op
  else if opClass op = 0xA#4 then .instr (.ldI (opNNN op))
  else if opClass op = 0xC#4 then .instr (.rnd (opX op) (opNN op))
  else if opClass op = 0xD#4 then .instr (.drw (opX op) (opY op) (opN op))
  else if opClass op = 0xF#4 then decodeClassF op
  else .opcodeNotSupported op

/-- Big-endian: the byte at the lower address is the high byte (20_memory.md R47). -/
def wordOfBytes (hi lo : Byte) : Word := hi ++ lo

/-- The byte of a word stored at the lower address (R47). -/
def highByte (w : Word) : Byte := w.extractLsb' 8 8

/-- The byte of a word stored at the higher address (R47). -/
def lowByte (w : Word) : Byte := w.extractLsb' 0 8

/-- What a decoder makes of a byte stream: an instruction and the rest, or a rejection by name. -/
inductive DecodedBytes where
  | instr (i : Instr) (rest : List Byte)
  | opcodeNotSupported (op : Word)
  /-- DESIGN CHOICE (log 21, safe): fewer than the two bytes every instruction takes (R74). -/
  | truncated
  deriving DecidableEq, Repr

/-- Reads exactly two bytes (R74). -/
def decodeBytes : List Byte → DecodedBytes
  | hi :: lo :: rest =>
    match decode (wordOfBytes hi lo) with
    | .instr i => .instr i rest
    | .opcodeNotSupported op => .opcodeNotSupported op
  | _ => .truncated

/-! ### The encoder -/

/-- The word of an instruction: its fields laid out from bit 15 down, as in R64's table. -/
def encode : Instr → Word
  | .cls => 0x00E0#16
  | .ret => 0x00EE#16
  | .jp nnn => 0x1#4 ++ nnn
  | .call nnn => 0x2#4 ++ nnn
  | .se x nn => 0x3#4 ++ x ++ nn
  | .ldImm x nn => 0x6#4 ++ x ++ nn
  | .addImm x nn => 0x7#4 ++ x ++ nn
  | .andReg x y => 0x8#4 ++ x ++ y ++ 0x2#4
  | .ldI nnn => 0xA#4 ++ nnn
  | .rnd x nn => 0xC#4 ++ x ++ nn
  | .drw x y n => 0xD#4 ++ x ++ y ++ n
  | .ldVxDt x => 0xF#4 ++ x ++ 0x07#8
  | .ldDtVx x => 0xF#4 ++ x ++ 0x15#8
  | .ldFVx x => 0xF#4 ++ x ++ 0x29#8
  | .ldBVx x => 0xF#4 ++ x ++ 0x33#8
  | .ldVxI x => 0xF#4 ++ x ++ 0x65#8

/-- The two bytes of an instruction, the one at the lower address first (R63). -/
def encodeBytes (i : Instr) : List Byte := [highByte (encode i), lowByte (encode i)]

/-! ### The opcode map as data (R67) -/

/-- One row of R67's table. -/
structure OpcodeRow where
  mnemonic : String
  pattern : Word
  mask : Word
  deriving DecidableEq, Repr

/-- A word matches a row when `(op & mask) == match` (R66). -/
def OpcodeRow.matchesWord (r : OpcodeRow) (op : Word) : Bool := op &&& r.mask == r.pattern

/-- The row of R67 that an instruction belongs to. -/
def opcodeRow : Instr → OpcodeRow
  | .cls => ⟨"CLS", 0x00E0#16, 0xFFFF#16⟩
  | .ret => ⟨"RET", 0x00EE#16, 0xFFFF#16⟩
  | .jp _ => ⟨"JP nnn", 0x1000#16, 0xF000#16⟩
  | .call _ => ⟨"CALL nnn", 0x2000#16, 0xF000#16⟩
  | .se _ _ => ⟨"SE Vx, nn", 0x3000#16, 0xF000#16⟩
  | .ldImm _ _ => ⟨"LD Vx, nn", 0x6000#16, 0xF000#16⟩
  | .addImm _ _ => ⟨"ADD Vx, nn", 0x7000#16, 0xF000#16⟩
  | .andReg _ _ => ⟨"AND Vx, Vy", 0x8002#16, 0xF00F#16⟩
  | .ldI _ => ⟨"LD I, nnn", 0xA000#16, 0xF000#16⟩
  | .rnd _ _ => ⟨"RND Vx, nn", 0xC000#16, 0xF000#16⟩
  | .drw _ _ _ => ⟨"DRW Vx, Vy, n", 0xD000#16, 0xF000#16⟩
  | .ldVxDt _ => ⟨"LD Vx, DT", 0xF007#16, 0xF0FF#16⟩
  | .ldDtVx _ => ⟨"LD DT, Vx", 0xF015#16, 0xF0FF#16⟩
  | .ldFVx _ => ⟨"LD F, Vx", 0xF029#16, 0xF0FF#16⟩
  | .ldBVx _ => ⟨"LD B, Vx", 0xF033#16, 0xF0FF#16⟩
  | .ldVxI _ => ⟨"LD Vx, [I]", 0xF065#16, 0xF0FF#16⟩

/-- The complete opcode map, in R67's order. -/
def opcodeTable : List OpcodeRow :=
  [opcodeRow .cls, opcodeRow .ret, opcodeRow (.jp 0), opcodeRow (.call 0), opcodeRow (.se 0 0),
   opcodeRow (.ldImm 0 0), opcodeRow (.addImm 0 0), opcodeRow (.andReg 0 0), opcodeRow (.ldI 0),
   opcodeRow (.rnd 0 0), opcodeRow (.drw 0 0 0)]
  ++ [opcodeRow (.ldVxDt 0), opcodeRow (.ldDtVx 0), opcodeRow (.ldFVx 0), opcodeRow (.ldBVx 0),
   opcodeRow (.ldVxI 0)]

/-! ### The host's numbering -/

/-- The instruction the decoder reads from `nbits` bits `w`, numbered as spec/opcode_table.json
numbers them (bit 0 the least significant bit of the one word), laid out big-endian. -/
def decodeTableWord (nbits w : Nat) : Option Instr :=
  let op : Word := BitVec.ofNat 16 (w % 2 ^ nbits)
  match decodeBytes [highByte op, lowByte op] with
  | .instr i _ => some i
  | .opcodeNotSupported _ => none
  | .truncated => none

end Sys2Proof
end

