-- ==== Sys2Proof/Machine/State.lean ====
section
/-! DEFINITION. The machine's state as plain data (10_state.md R20), the reasons a step can stop, the
state construction leaves (R36) and the state after reset. -/

namespace Sys2Proof.Machine

/-- A fault record (60_exceptions.md R141): what `fault` holds after a cycle that faulted. -/
inductive FaultRecord where
  /-- Code 1: the word matches no row of the opcode map. -/
  | opcodeNotSupported (op : Word)
  /-- Code 2: `a` is the lowest address at or past MEM_SIZE the instruction would access. -/
  | addressOutOfRange (a : Nat)
  /-- Code 3: 00EE with S empty. -/
  | callStackUnderflow
  /-- Code 4: 2NNN with a bounded, full S. -/
  | callStackOverflow
  deriving DecidableEq, Repr

/-- Memory: the (address, byte) pairs whose byte is not 0, addresses strictly rising. An address not
listed reads as 0, the contents at construction (10_state.md R36; log 16). -/
abbrev Memory := List Host.Cell

/-- The display: rows from y = 0, each a list of pixels from x = 0; `true` is on (10_state.md R31;
log 18). -/
abbrev Grid := List (List Bool)

/-- The whole state of one core (R20), with the construction parameters and the model's own counters
of free values. -/
structure State where
  /-- The parameters of 00_scope.md R6, never changed (log 4). -/
  params : Params
  /-- M, the memory (20_memory.md R45). -/
  M : Memory
  /-- V0 to VF (R21). -/
  V : Vector Byte 16
  /-- The index register (R25). -/
  I : Word
  /-- The program counter (R27). -/
  pc : Word
  /-- The call stack, its top at the end (R26, 00_scope.md R11). -/
  S : List Word
  /-- The delay timer (R30). -/
  DT : Byte
  /-- The display (R31). -/
  D : Grid
  /-- The generator's state, numbered, which no program reads (R32; log 2). -/
  rng : Nat
  /-- Whether the timer task is started (R33). -/
  timerRunning : Bool
  /-- The fault status (R20, R34). -/
  fault : Option FaultRecord
  /-- The model's own: how many free random bytes have been taken (log 5). -/
  draws : Nat
  /-- The model's own: how many free tick counts have been taken (log 7). -/
  tickIndex : Nat
  deriving DecidableEq, Repr

/-- The faults of R141, as a cycle's outcome (40_cycle.md R85: "the state with `fault = F`"). Each
carries that state, `after`, so nothing the spec says of it is lost (log 8). -/
inductive Fault where
  /-- Raised by `execute` for a word outside the opcode map (R144). Exact, safe. -/
  | opcodeNotSupported (op : Word) (after : State)
  /-- Raised by the fetch, DXYN, FX33 and FX65 (R145). The source leaves the access undefined; the
  spec's decision D6 faults: safe (log 10). -/
  | addressOutOfRange (a : Nat) (after : State)
  /-- Raised by 00EE (R146). The source leaves it undefined; decision D8 faults: safe (log 11). -/
  | callStackUnderflow (after : State)
  /-- Raised by 2NNN when STACK_DEPTH is bounded (R147). Decision D9: safe (log 11). -/
  | callStackOverflow (after : State)
  deriving DecidableEq, Repr

/-- Why a step has no meaning. -/
inductive Refusal where
  /-- Raised by an arm of `exec` whose instruction has no meaning yet; no arm is such. Safe. -/
  | notModelled (mnemonic : String)
  /-- Raised by a cycle, or by the host's `decode`, while `fault` is set (40_cycle.md R84, decision
  D21). Safe (log 9). -/
  | faultPending (record : FaultRecord)
  deriving DecidableEq, Repr

/-- The launch values construction leaves unspecified (10_state.md R36). -/
structure Launch where
  V : Vector Byte 16
  I : Word
  DT : Byte
  rng : Nat
  deriving DecidableEq, Repr

/-- DESIGN CHOICE (log 1, log 2; unsafe): the launch values State.reset names. -/
def Launch.zero : Launch where
  V := Vector.replicate 16 0
  I := 0
  DT := 0
  rng := 0

/-- A newly constructed core (R36, 70_reset_and_hazards.md R183), for any parameters and launch
values. -/
def State.construct (p : Params) (l : Launch) : State where
  params := p
  M := []
  V := l.V
  I := l.I
  pc := 0
  S := []
  DT := l.DT
  D := List.replicate p.height (List.replicate p.width false)
  rng := l.rng
  timerRunning := false
  fault := none
  draws := 0
  tickIndex := 0

/-- The machine right after reset: constructed with the default parameters, then `reset()`, which
loads pc with ROM_START (R180, R184; log 3). -/
def State.reset : State :=
  { State.construct Params.standard Launch.zero with pc := BitVec.ofNat 16 Params.standard.romStart }

end Sys2Proof.Machine
end

