-- ==== Sys2Proof/Machine/Operands.lean ====
section
/-! DEFINITION. Operand forms: how a field or a register value becomes an address, a coordinate, a
sprite bit or a digit (30_encoding.md R65; 41_display.md R93; 44_index_memory.md R120, R124). -/

namespace Sys2Proof.Machine

/-- `zext_16(NNN)` (R65). -/
def targetOf (nnn : Addr12) : Word := nnn.setWidth 16

/-- `zext_16(V[X])` (R122). -/
def zextByte (b : Byte) : Word := b.setWidth 16

/-- The effective address of the k-th byte of an access through I: exact, never wrapped (R51,
R120). -/
def effectiveAddress (index : Word) (k : Nat) : Nat := index.toNat + k

/-- A draw's anchor coordinate: the register reduced by the dimension, once (R93). -/
def anchor (v : Byte) (dimension : Nat) : Nat := v.toNat % dimension

/-- `R := min(N, H - y0)`, the rows that lie on screen (R93). -/
def visibleRows (n : Nibble) (height y0 : Nat) : Nat := min n.toNat (height - y0)

/-- `C := min(8, W - x0)`, the columns that lie on screen (R94). -/
def visibleColumns (width x0 : Nat) : Nat := min 8 (width - x0)

/-- `(b >> (7 - col)) & 1`: the most significant bit is the leftmost pixel (R93). -/
def spriteBit (b : Byte) (col : Nat) : Bool := b.getLsbD (7 - col)

/-- `v div 100` (R124). -/
def hundredsDigit (v : Byte) : Byte := BitVec.ofNat 8 (v.toNat / 100)

/-- `(v div 10) mod 10` (R124). -/
def tensDigit (v : Byte) : Byte := BitVec.ofNat 8 (v.toNat / 10 % 10)

/-- `v mod 10` (R124). -/
def onesDigit (v : Byte) : Byte := BitVec.ofNat 8 (v.toNat % 10)

end Sys2Proof.Machine
end

