-- ==== Sys2Proof/Machine/Ops.lean ====
section
/-! DEFINITION. The named operations over memory, registers, display, stack and timer, taking a fault
as one shared operation, the fetch, and the tick. -/

namespace Sys2Proof.Machine

/-- The three outcomes of a cycle (40_cycle.md R85). -/
abbrev Result := Host.Outcome State Fault Refusal

/-! ### Memory as a sparse list of bytes (20_memory.md R45) -/

/-- What an address that is not listed reads as: memory is "zero-filled" (10_state.md R36; log 16). -/
def unlistedByte : Byte := 0

/-- The byte at an address. -/
def Memory.read : Memory → Nat → Byte
  | [], _ => unlistedByte
  | (c, b) :: m, a => if a = c then b else Memory.read m a

/-- A cell in front of a memory, left out when it holds what an unlisted address reads as. -/
def Memory.cons (a : Nat) (b : Byte) (m : Memory) : Memory :=
  if b = unlistedByte then m else (a, b) :: m

/-- Stores a byte and keeps the canonical form. -/
def Memory.write : Memory → Nat → Byte → Memory
  | [], a, b => Memory.cons a b []
  | (c, d) :: m, a, b =>
    if a < c then Memory.cons a b ((c, d) :: m)
    else if a = c then Memory.cons a b m
    else (c, d) :: Memory.write m a b

/-- Addresses strictly rising from `lo` on, and no byte equal to what an unlisted address reads as. -/
def Memory.wfFrom : Nat → Memory → Bool
  | _, [] => true
  | lo, (a, b) :: m => decide (lo ≤ a) && decide (b ≠ unlistedByte) && Memory.wfFrom (a + 1) m

/-- The canonical form: equal memories are equal lists. -/
def Memory.wf (m : Memory) : Bool := Memory.wfFrom 0 m

/-- Every listed address exists (R45). -/
def Memory.within (m : Memory) (size : Nat) : Bool := m.all fun c => decide (c.1 < size)

/-! ### Registers -/

/-- `V[r]` (00_scope.md R11): no register is hardwired (10_state.md R21). -/
def State.getV (s : State) (r : Nibble) : Byte := s.V[r.toNat]'r.isLt

/-- `V[r] <- v`. -/
def State.setV (s : State) (r : Nibble) (v : Byte) : State :=
  { s with V := s.V.set r.toNat v r.isLt }

/-- `I <- w`. -/
def State.setI (s : State) (w : Word) : State := { s with I := w }

/-- `pc <- w`. -/
def State.setPc (s : State) (w : Word) : State := { s with pc := w }

/-- `DT <- v`. -/
def State.setDT (s : State) (v : Byte) : State := { s with DT := v }

/-- `pc <- (pc + 2) mod 65536`: the instruction width, modulo the pc's width (10_state.md R27). -/
def State.advancePc (s : State) : State := s.setPc (s.pc + 2)

/-! ### The call stack (10_state.md R26) -/

/-- `push(S, a)`. -/
def State.push (s : State) (a : Word) : State := { s with S := s.S ++ [a] }

/-- The top of S, none when S is empty. -/
def State.top? (s : State) : Option Word := s.S.getLast?

/-- `pop(S)`, its result being `top?`. -/
def State.pop (s : State) : State := { s with S := s.S.dropLast }

/-- A bounded S holds STACK_DEPTH entries (42_control_flow.md R103). -/
def State.stackFull (s : State) : Bool :=
  match s.params.stackDepth with
  | none => false
  | some d => decide (s.S.length = d)

/-! ### Memory accesses of the core -/

/-- `M[a]`. -/
def State.readByte (s : State) (a : Nat) : Byte := Memory.read s.M a

/-- `M[a] <- v`. -/
def State.writeByte (s : State) (a : Nat) (v : Byte) : State := { s with M := Memory.write s.M a v }

/-- `MemRead(a, 1)`: the byte, or at or past MEM_SIZE the address of `AddressOutOfRange(a)`
(00_scope.md R12). -/
def memRead (s : State) (a : Nat) : Except Nat Byte :=
  if a < s.params.memSize then .ok (s.readByte a) else .error a

/-- `MemWrite(a, 1, v)`: the state with the byte stored, or at or past MEM_SIZE the address of
`AddressOutOfRange(a)` (00_scope.md R12). -/
def memWrite (s : State) (a : Nat) (v : Byte) : Except Nat State :=
  if a < s.params.memSize then .ok (s.writeByte a v) else .error a

/-- `check(I, n)` (44_index_memory.md R123), and none for n = 0, where nothing is accessed
(41_display.md R95 item 1): the lowest failing address, if one fails. -/
def outOfRange (s : State) (n : Nat) : Option Nat :=
  if n = 0 ∨ s.I.toNat + n ≤ s.params.memSize then none
  else some (max s.I.toNat s.params.memSize)

/-- Stores bytes at consecutive addresses, the first at `a`. -/
def storeBytes (a : Nat) : List Byte → State → State
  | [], s => s
  | b :: bs, s => storeBytes (a + 1) bs (s.writeByte a b)

/-- The bytes at `a`, ..., `a + n - 1`. -/
def readBytes (s : State) (a n : Nat) : List Byte := (List.range n).map fun k => s.readByte (a + k)

/-- `for i in 0 .. n-1: V[i] <- MemRead(I + i, 1)` (R125). -/
def loadRegisters (n : Nat) (s : State) : State :=
  (List.range n).foldl
    (fun t k => t.setV (BitVec.ofNat 4 k) (t.readByte (effectiveAddress t.I k))) s

/-! ### The display (10_state.md R31) -/

/-- `D[x, y]`. Outside the grid, which no instruction reaches, off (log 18). -/
def State.pixel (s : State) (x y : Nat) : Bool := (s.D.getD y []).getD x false

/-- `D[x, y] <- b`. -/
def State.setPixel (s : State) (x y : Nat) (b : Bool) : State :=
  { s with D := s.D.modify y fun row => row.set x b }

/-- Every pixel of every row off (41_display.md R91). -/
def State.clearDisplay (s : State) : State :=
  { s with D := s.D.map fun row => row.map fun _ => false }

/-! ### Faults -/

/-- The outcome for a record and the state after it. -/
def Fault.of : FaultRecord → State → Fault
  | .opcodeNotSupported op, t => .opcodeNotSupported op t
  | .addressOutOfRange a, t => .addressOutOfRange a t
  | .callStackUnderflow, t => .callStackUnderflow t
  | .callStackOverflow, t => .callStackOverflow t

/-- The record of a fault (60_exceptions.md R141). -/
def Fault.record : Fault → FaultRecord
  | .opcodeNotSupported op _ => .opcodeNotSupported op
  | .addressOutOfRange a _ => .addressOutOfRange a
  | .callStackUnderflow _ => .callStackUnderflow
  | .callStackOverflow _ => .callStackOverflow

/-- The state a fault leaves (R150). -/
def Fault.after : Fault → State
  | .opcodeNotSupported _ t => t
  | .addressOutOfRange _ t => t
  | .callStackUnderflow t => t
  | .callStackOverflow t => t

/-- `fault <- r` (40_cycle.md R82, R84). -/
def State.recordFault (s : State) (r : FaultRecord) : State := { s with fault := some r }

/-- `raise F(info)` (00_scope.md R13): the one way a fault is taken. `fault` holds the record and
nothing else changes; there is no handler, vector or saved register (60_exceptions.md R140, R150). -/
def raise (r : FaultRecord) (s : State) : Result := .fault (Fault.of r (s.recordFault r))

/-! ### The fetch (40_cycle.md R80, R81) -/

/-- The opcode at pc, or the address of the first byte that is out of range. `pc + 1` is exact. -/
def fetch (s : State) : Except Nat Word :=
  match memRead s s.pc.toNat with
  | .error a => .error a
  | .ok hi =>
    match memRead s (s.pc.toNat + 1) with
    | .error a => .error a
    | .ok lo => .ok (wordOfBytes hi lo)

/-! ### The random-byte source (43_alu.md R116) -/

/-- `RNG_NEXT(rng)`: the byte and the next state. -/
def generatorStep (g : Generator) (state : Nat) : Byte × Nat :=
  (g.nextRows.lookup state).getD (Config.rngNext g.name state)

/-- The state for a seed (60_exceptions.md R168). -/
def generatorSeed (g : Generator) (seed : Nat) : Nat :=
  (g.seedRows.lookup seed).getD (Config.rngOfSeed g.name seed)

/-- The core's generator: RNG_NEXT's, or, where it is absent, the seeded one of which the spec gives
nothing. -/
def State.generator (s : State) : Generator := s.params.rngNext.getD .unknown

/-- The byte `random_byte()` returns: a free draw, or the deterministic generator's. -/
def randomByte (s : State) : Byte :=
  match s.params.rngNext with
  | none => Config.draw8 s.draws
  | some g => (generatorStep g s.rng).1

/-- What `random_byte()` leaves: the generator advanced once (R115), the next draw a fresh one
(R116; log 5, log 6). -/
def State.afterRandomByte (s : State) : State :=
  { s with rng := (generatorStep s.generator s.rng).2, draws := s.draws + 1 }

/-- The value belongs to the seed type SEED (00_scope.md R6). -/
def seedAccepted (p : Params) (seed : Nat) : Bool :=
  match p.seedCount with
  | none => true
  | some n => decide (seed < n)

/-- `set_seed(s)` for a value of the seed type: rng replaced by that seed's state (60_exceptions.md
R168). -/
def State.reseed (s : State) (seed : Nat) : State := { s with rng := generatorSeed s.generator seed }

/-! ### The delay-timer tick (45_delay_timer.md R133) -/

/-- One tick, enabled only while the timer task runs; at 0, DT stays 0 (decision D16; log 13). -/
def tick (s : State) : State :=
  if s.timerRunning then (if s.DT = 0 then s else s.setDT (s.DT - 1)) else s

/-- A number of ticks, one after the other. -/
def ticks : Nat → State → State
  | 0, s => s
  | k + 1, s => ticks k (tick s)

/-- The ticks that fall before a cycle: a free number while the timer task runs, none while it does
not (R133; log 7). -/
def deliverTicks (s : State) : State :=
  if s.timerRunning then
    { ticks (Config.ticksBefore s.tickIndex) s with tickIndex := s.tickIndex + 1 }
  else s

/-! ### Reset (70_reset_and_hazards.md R180) -/

/-- `reset()`: pc at ROM_START and nothing else. -/
def resetPc (s : State) : State := s.setPc (BitVec.ofNat 16 s.params.romStart)

end Sys2Proof.Machine
end

