-- ==== Sys2Proof/Machine/Alu.lean ====
section
/-! DEFINITION. 6XNN, 7XNN, 8XY2 and CXNN (43_alu.md): no flag is written (R110). -/

namespace Sys2Proof.Machine

/-- `6XNN` LD (R111). -/
def execLdImm (x : Nibble) (nn : Byte) (s : State) : Result := .next (s.setV x nn)

/-- `7XNN` ADD, modulo 256 with no carry out (R112). -/
def execAddImm (x : Nibble) (nn : Byte) (s : State) : Result := .next (s.setV x (s.getV x + nn))

/-- `8XY2` AND (R113). -/
def execAndReg (x y : Nibble) (s : State) : Result := .next (s.setV x (s.getV x &&& s.getV y))

/-- `CXNN` RND: exactly one random byte, masked (R115). -/
def execRnd (x : Nibble) (nn : Byte) (s : State) : Result :=
  .next (s.afterRandomByte.setV x (randomByte s &&& nn))

end Sys2Proof.Machine
end

