-- ==== Sys2Proof/Machine/ControlFlow.lean ====
section
/-! DEFINITION. 00EE, 1NNN, 2NNN and 3XNN (42_control_flow.md). pc already holds the fetched address
plus 2. -/

namespace Sys2Proof.Machine

/-- `00EE` RET (R101): the popped address is pc as it is; an empty stack faults. -/
def execRet (s : State) : Result :=
  match s.top? with
  | none => raise .callStackUnderflow s
  | some a => .next (s.pop.setPc a)

/-- `1NNN` JP (R102). -/
def execJp (nnn : Addr12) (s : State) : Result := .next (s.setPc (targetOf nnn))

/-- `2NNN` CALL (R103): pushes the already-advanced pc; a bounded, full stack faults. -/
def execCall (nnn : Addr12) (s : State) : Result :=
  if s.stackFull then raise .callStackOverflow s
  else .next ((s.push s.pc).setPc (targetOf nnn))

/-- `3XNN` SE (R104): the skip adds exactly 2 more. -/
def execSe (x : Nibble) (nn : Byte) (s : State) : Result :=
  .next (if s.getV x = nn then s.advancePc else s)

end Sys2Proof.Machine
end

