-- ==== Sys2Proof/Machine/DelayTimer.lean ====
section
/-! DEFINITION. FX07 and FX15 (45_delay_timer.md); the tick is in Ops. -/

namespace Sys2Proof.Machine

/-- `FX07` LD Vx, DT (R131). -/
def execLdVxDt (x : Nibble) (s : State) : Result := .next (s.setV x s.DT)

/-- `FX15` LD DT, Vx (R132). -/
def execLdDtVx (x : Nibble) (s : State) : Result := .next (s.setDT (s.getV x))

end Sys2Proof.Machine
end

