-- ==== Sys2Proof/Machine/Flags.lean ====
section
/-! DEFINITION. The one flag, VF, and the one flag computation, DXYN's collision (10_state.md R24,
41_display.md R92). No other instruction has a flag side effect (90_conflicts.md C3). -/

namespace Sys2Proof.Machine

/-- VF is V[15] (R21). -/
def flagRegister : Nibble := 0xF#4

/-- A collision: a pixel that was on before the draw wrote it and is off after (R92). -/
def collides (before after : Bool) : Bool := before && !after

/-- A collision writes `VF <- 1`; without one VF is untouched, never cleared (R92). -/
def noteCollision (collision : Bool) (s : State) : State :=
  if collision then s.setV flagRegister 1 else s

end Sys2Proof.Machine
end

