-- ==== Sys2Proof/Machine/Display.lean ====
section
/-! DEFINITION. 00E0 and DXYN (41_display.md). pc already holds the fetched address plus 2. -/

namespace Sys2Proof.Machine

/-- `00E0` CLS (R91). -/
def execCls (s : State) : Result := .next s.clearDisplay

/-- One pixel of a draw: XOR, then the collision test (R93). -/
def drawPixel (x y : Nat) (bit : Bool) (s : State) : State :=
  noteCollision (collides (s.pixel x y) (s.pixel x y ^^ bit)) (s.setPixel x y (s.pixel x y ^^ bit))

/-- One row of a draw, left to right, truncated at the right edge (R93). -/
def drawRow (x0 y : Nat) (b : Byte) (s : State) : State :=
  (List.range (visibleColumns s.params.width x0)).foldl
    (fun t col => drawPixel (x0 + col) y (spriteBit b col) t) s

/-- The rows of a draw, each from its own byte of memory (R93). -/
def drawRows (x0 y0 rows : Nat) (s : State) : State :=
  (List.range rows).foldl
    (fun t row => drawRow x0 (y0 + row) (t.readByte (effectiveAddress t.I row)) t) s

/-- `DXYN` DRW (R93): the anchor wraps, the body truncates, and the addresses of the rows on screen
are checked before any write. -/
def execDrw (x y n : Nibble) (s : State) : Result :=
  let x0 := anchor (s.getV x) s.params.width
  let y0 := anchor (s.getV y) s.params.height
  let rows := visibleRows n s.params.height y0
  match outOfRange s rows with
  | some a => raise (.addressOutOfRange a) s
  | none => .next (drawRows x0 y0 rows s)

end Sys2Proof.Machine
end

