-- ==== Sys2Proof/Machine/IndexMemory.lean ====
section
/-! DEFINITION. ANNN, FX29, FX33 and FX65 (44_index_memory.md). No access changes I (R120). -/

namespace Sys2Proof.Machine

/-- `ANNN` LD I (R121). -/
def execLdI (nnn : Addr12) (s : State) : Result := .next (s.setI (targetOf nnn))

/-- `FX29` LD F (R122): I takes V[X] itself, not a font address. -/
def execLdFVx (x : Nibble) (s : State) : Result := .next (s.setI (zextByte (s.getV x)))

/-- `FX33` LD B (R124): hundreds, tens and ones at I, I+1 and I+2, checked before any write. -/
def execLdBVx (x : Nibble) (s : State) : Result :=
  match outOfRange s 3 with
  | some a => raise (.addressOutOfRange a) s
  | none =>
    .next (storeBytes (effectiveAddress s.I 0)
      [hundredsDigit (s.getV x), tensDigit (s.getV x), onesDigit (s.getV x)] s)

/-- `FX65` LD Vx, [I] (R125): V0 to VX inclusive, checked before any write. -/
def execLdVxI (x : Nibble) (s : State) : Result :=
  match outOfRange s (x.toNat + 1) with
  | some a => raise (.addressOutOfRange a) s
  | none => .next (loadRegisters (x.toNat + 1) s)

end Sys2Proof.Machine
end

