-- ==== Sys2Proof/Machine/Cycle.lean ====
section
/-! DEFINITION. The instruction cycle `advance()` and `execute(op)` (40_cycle.md R82 to R85). -/

namespace Sys2Proof.Machine

/-- `execute(op)` (R83): decode by the opcode map, then the instruction's own rule. -/
def execute (op : Word) (s : State) : Result :=
  match decode op with
  | .opcodeNotSupported bad => raise (.opcodeNotSupported bad) s
  | .instr i => exec i s

/-- Fault gating (R84): while `fault` is set the operation is refused. -/
def gated (operation : State → Result) (s : State) : Result :=
  match s.fault with
  | some r => .refused (.faultPending r)
  | none => operation s

/-- `advance()` past the gate: fetch, then advance pc, then decode and execute (R82). A fetch fault
leaves pc (R81). -/
def cycle (s : State) : Result :=
  match fetch s with
  | .error a => raise (.addressOutOfRange a) s
  | .ok op => execute op s.advancePc

/-- `advance()` (R82). -/
def advance (s : State) : Result := gated cycle s

end Sys2Proof.Machine
end

