-- ==== Sys2Proof/Machine/Step.lean ====
section
/-! DEFINITION. One step: the ticks that fall before a cycle, then the cycle. -/

namespace Sys2Proof.Machine

/-- A free number of ticks while the timer task runs (45_delay_timer.md R133; log 7), then one
`advance()` (40_cycle.md R82). -/
def step (s : State) : Host.Outcome State Fault Refusal := advance (deliverTicks s)

/-- `s` with the instruction whose bits are `w` stored big-endian at pc and pc + 1, where the next
step fetches. Where pc + 1 is not an address of memory no instruction can be fetched, and nothing is
stored (log 22). -/
def State.withFetchWord (s : State) (nbits w : Nat) : State :=
  let op : Word := BitVec.ofNat 16 (w % 2 ^ nbits)
  if s.pc.toNat + 1 < s.params.memSize then
    storeBytes s.pc.toNat [highByte op, lowByte op] s
  else s

end Sys2Proof.Machine
end

