-- ==== Sys2Proof/Machine/HostPort.lean ====
section
/-! DEFINITION. The host port (60_exceptions.md R159 to R171): each transaction as one function on the
state. A transaction completes with its result or answers an error that changes no state. -/

namespace Sys2Proof.Machine

/-- The transactions of R160 to R169, R171 and R180. The widths of the arguments are the port's
(decision D25; log 12, log 19); a seed is numbered, and SEED says which numbers are seeds (log 6). -/
inductive HostCall where
  | displayWidth
  | displayHeight
  | memorySize
  | loadRom (bytes : List Byte)
  | reset
  | getMemoryByte (a : Nat)
  | setMemoryByte (a : Nat) (v : Byte)
  | getRam (includeReserved : Bool)
  | getV (n : Nat)
  | setV (n : Nat) (v : Byte)
  | getFlag
  | setFlag (v : Byte)
  | getI
  | setI (w : Word)
  | getPc
  | setPc (w : Word)
  | getPixel (x y : Nat)
  | setPixel (x y : Nat) (b : Bool)
  | clearScreen
  | advance
  | fetchInstruction
  | decode (op : Word)
  | setSeed (seed : Nat)
  | timerStart
  | timerStop
  | displayStr
  | stateDump
  deriving DecidableEq, Repr

/-- The error responses. None sets `fault` (R159). -/
inductive HostError where
  /-- `get_v`, `set_v` with an index outside [0, 16) (R148). -/
  | invalidRegister (n : Nat)
  /-- `get_memory_byte`, `set_memory_byte`, `fetch_instruction` past the end of memory (R162,
  R166). -/
  | addressOutOfRange (a : Nat)
  /-- `AddressOutOfRange(x, y)` of `get_pixel`, `set_pixel` (R165). -/
  | pixelOutOfRange (x y : Nat)
  /-- `load_rom` of an image longer than the program area (R161, decision D26). -/
  | romTooLarge
  /-- `set_seed` with a value outside the type SEED (00_scope.md R6; DESIGN CHOICE, safe: log 6). -/
  | seedNotAccepted (seed : Nat)
  deriving DecidableEq, Repr

/-- What a transaction answers. -/
inductive Response where
  | done
  | number (n : Nat)
  | truth (b : Bool)
  | byte (b : Byte)
  | bytes (l : List Byte)
  | word (w : Word)
  | pixel (on : Bool)
  | text (t : List Char)
  | ok
  | faulted (r : FaultRecord)
  | refused
  | error (e : HostError)
  deriving DecidableEq, Repr

/-- The outcome of a cycle as the host sees it, with the state it leaves (R150, R166). -/
def reportCycle (s : State) : Result → State × Response
  | .next t => (t, .ok)
  | .fault f => (f.after, .faulted f.record)
  | .refused _ => (s, .refused)

/-- `load_rom(bytes)` (R161). -/
def loadRom (bytes : List Byte) (s : State) : State × Response :=
  if bytes = [] then (s, .truth false)
  else if s.params.memSize < s.params.romStart + bytes.length then (s, .error .romTooLarge)
  else (storeBytes s.params.romStart bytes s, .truth true)

/-- `get_ram(include_reserved)` (R163). -/
def ramCopy (includeReserved : Bool) (s : State) : List Byte :=
  if includeReserved then readBytes s 0 s.params.memSize
  else readBytes s s.params.romStart (s.params.memSize - s.params.romStart)

/-- A register by the port's index, none outside [0, 16) (R148, R164). -/
def registerOfIndex (n : Nat) : Option Nibble := if n < 16 then some (BitVec.ofNat 4 n) else none

/-- `get_v(n)` (R164). -/
def hostGetV (n : Nat) (s : State) : State × Response :=
  match registerOfIndex n with
  | none => (s, .error (.invalidRegister n))
  | some r => (s, .byte (s.getV r))

/-- `set_v(n, v)` (R164). -/
def hostSetV (n : Nat) (v : Byte) (s : State) : State × Response :=
  match registerOfIndex n with
  | none => (s, .error (.invalidRegister n))
  | some r => (s.setV r v, .done)

/-- `get_memory_byte(a)` (R162). -/
def hostGetByte (a : Nat) (s : State) : State × Response :=
  match memRead s a with
  | .ok b => (s, .byte b)
  | .error e => (s, .error (.addressOutOfRange e))

/-- `set_memory_byte(a, v)` (R162). -/
def hostSetByte (a : Nat) (v : Byte) (s : State) : State × Response :=
  match memWrite s a v with
  | .ok t => (t, .done)
  | .error e => (s, .error (.addressOutOfRange e))

/-- `0 <= x < W` and `0 <= y < H` (R165). -/
def State.onScreen (s : State) (x y : Nat) : Bool :=
  decide (x < s.params.width) && decide (y < s.params.height)

/-- `get_pixel(x, y)` (R165). -/
def hostGetPixel (x y : Nat) (s : State) : State × Response :=
  if s.onScreen x y then (s, .pixel (s.pixel x y)) else (s, .error (.pixelOutOfRange x y))

/-- `set_pixel(x, y, b)` (R165). -/
def hostSetPixel (x y : Nat) (b : Bool) (s : State) : State × Response :=
  if s.onScreen x y then (s.setPixel x y b, .done) else (s, .error (.pixelOutOfRange x y))

/-- `fetch_instruction()` (R166): no side effect, and `fault` is not set. -/
def hostFetch (s : State) : State × Response :=
  match fetch s with
  | .ok op => (s, .word op)
  | .error a => (s, .error (.addressOutOfRange a))

/-- `set_seed(s)` (R168). -/
def hostSetSeed (seed : Nat) (s : State) : State × Response :=
  if seedAccepted s.params seed then (s.reseed seed, .done) else (s, .error (.seedNotAccepted seed))

/-- `timer_start()` and `timer_stop()`, both idempotent, DT unchanged (R169, decision D17). -/
def setTimer (running : Bool) (s : State) : State := { s with timerRunning := running }

/-- A row of `display_str()`: `X` on, a space off, then a newline (R171). -/
def rowText (row : List Bool) : List Char := row.map (fun on => if on then 'X' else ' ') ++ ['\n']

/-- `display_str()`: rows from y = 0, columns from x = 0 (R171, decision D34; log 20). -/
def displayText (s : State) : List Char := s.D.flatMap rowText

/-- The registers V0 to VF, in order. -/
def registerList (s : State) : List Byte := s.V.toList

/-- The state dump: its contents are R171's, its layout a free value (log 20). -/
def dumpText (s : State) : List Char :=
  Config.stateDumpText s.pc s.I (s.getV flagRegister)
    (match fetch s with
     | .ok op => some op
     | .error _ => none)
    (registerList s)

/-- One hexadecimal digit, upper case (R143, decision D23; log 20). -/
def hexDigit (n : Nibble) : Char :=
  if n.toNat < 10 then Char.ofNat (48 + n.toNat) else Char.ofNat (55 + n.toNat)

/-- The message of OpcodeNotSupported: `0x` and exactly four digits (R143). -/
def opcodeMessage (op : Word) : List Char :=
  ['0', 'x', hexDigit (opClass op), hexDigit (opX op), hexDigit (opY op), hexDigit (opN op)]

/-- The numeric fault codes of R141. -/
def FaultRecord.code : FaultRecord → Nat
  | .opcodeNotSupported _ => 1
  | .addressOutOfRange _ => 2
  | .callStackUnderflow => 3
  | .callStackOverflow => 4

/-- One transaction: the state it leaves and its answer. -/
def transact (c : HostCall) (s : State) : State × Response :=
  match c with
  | .displayWidth => (s, .number s.params.width)
  | .displayHeight => (s, .number s.params.height)
  | .memorySize => (s, .number s.params.memSize)
  | .loadRom bytes => loadRom bytes s
  | .reset => (resetPc s, .done)
  | .getMemoryByte a => hostGetByte a s
  | .setMemoryByte a v => hostSetByte a v s
  | .getRam includeReserved => (s, .bytes (ramCopy includeReserved s))
  | .getV n => hostGetV n s
  | .setV n v => hostSetV n v s
  | .getFlag => hostGetV 15 s
  | .setFlag v => hostSetV 15 v s
  | .getI => (s, .word s.I)
  | .setI w => (s.setI w, .done)
  | .getPc => (s, .word s.pc)
  | .setPc w => (s.setPc w, .done)
  | .getPixel x y => hostGetPixel x y s
  | .setPixel x y b => hostSetPixel x y b s
  | .clearScreen => (s.clearDisplay, .done)
  | .advance => reportCycle s (Sys2Proof.Machine.advance s)
  | .fetchInstruction => hostFetch s
  | .decode op => reportCycle s (gated (execute op) s)
  | .setSeed seed => hostSetSeed seed s
  | .timerStart => (setTimer true s, .done)
  | .timerStop => (setTimer false s, .done)
  | .displayStr => (s, .text (displayText s))
  | .stateDump => (s, .text (dumpText s))

end Sys2Proof.Machine
end

