-- ==== Sys2Proof/Safety.lean ====
section
/-! DEFINITION. The terms claims are stated in: the invariant of a legal state, what a claim says is
unchanged, the register table of 10_state.md R22, and the ends of a run (70_reset_and_hazards.md
R192). -/

namespace Sys2Proof.Machine

/-! ### Legal states -/

/-- What the spec's state tuple allows (10_state.md R20): the parameters are legal (00_scope.md R6),
memory is canonical and inside the address space (20_memory.md R45), the display is H rows of W
pixels (R31), and the stack holds at most STACK_DEPTH entries (R26). -/
structure State.Inv (s : State) : Prop where
  params : s.params.wf = true
  memCanonical : Memory.wf s.M = true
  memInside : Memory.within s.M s.params.memSize = true
  rows : s.D.length = s.params.height
  columns : ∀ row ∈ s.D, row.length = s.params.width
  stack : ∀ d, s.params.stackDepth = some d → s.S.length ≤ d

/-! ### Frames -/

/-- Every byte of memory reads as before. -/
def SameMemory (s t : State) : Prop := ∀ a, t.readByte a = s.readByte a

/-- Every pixel is as before. -/
def SamePixels (s t : State) : Prop := ∀ x y, t.pixel x y = s.pixel x y

/-- Every V register outside `written` is as before. -/
def SameVExcept (written : Nibble → Prop) (s t : State) : Prop :=
  ∀ r, ¬ written r → t.getV r = s.getV r

/-- What no instruction that completes writes: the parameters, the timer task, the fault status and
the counter of free tick counts. -/
def SameControl (s t : State) : Prop :=
  t.params = s.params ∧ t.timerRunning = s.timerRunning ∧ t.fault = s.fault
    ∧ t.tickIndex = s.tickIndex

/-- The generator and the counter of its free draws, which only CXNN changes. -/
def SameGenerator (s t : State) : Prop := t.rng = s.rng ∧ t.draws = s.draws

/-- Nothing but pc and the V registers in `written` has changed. -/
def OnlyPcAndV (written : Nibble → Prop) (s t : State) : Prop :=
  SameVExcept written s t ∧ SameMemory s t ∧ SamePixels s t ∧ t.I = s.I ∧ t.S = s.S ∧ t.DT = s.DT
    ∧ SameGenerator s t ∧ SameControl s t

/-- No V register at all. -/
def noRegister : Nibble → Prop := fun _ => False

/-- One V register. -/
def onlyRegister (x : Nibble) : Nibble → Prop := fun r => r = x

/-! ### The register table of R22 -/

/-- The V registers an instruction reads. -/
def readsV : Instr → Nibble → Prop
  | .se x _, r => r = x
  | .addImm x _, r => r = x
  | .andReg x y, r => r = x ∨ r = y
  | .drw x y _, r => r = x ∨ r = y
  | .ldDtVx x, r => r = x
  | .ldFVx x, r => r = x
  | .ldBVx x, r => r = x
  | .cls, _ => False
  | .ret, _ => False
  | .jp _, _ => False
  | .call _, _ => False
  | .ldImm _ _, _ => False
  | .ldI _, _ => False
  | .rnd _ _, _ => False
  | .ldVxDt _, _ => False
  | .ldVxI _, _ => False

/-- The V registers an instruction may write. -/
def writesV : Instr → Nibble → Prop
  | .ldImm x _, r => r = x
  | .addImm x _, r => r = x
  | .andReg x _, r => r = x
  | .rnd x _, r => r = x
  | .drw _ _ _, r => r = flagRegister
  | .ldVxDt x, r => r = x
  | .ldVxI x, r => r.toNat ≤ x.toNat
  | .cls, _ => False
  | .ret, _ => False
  | .jp _, _ => False
  | .call _, _ => False
  | .se _ _, _ => False
  | .ldI _, _ => False
  | .ldDtVx _, _ => False
  | .ldFVx _, _ => False
  | .ldBVx _, _ => False

/-! ### The pc table of R28 and the writers of I and DT -/

/-- The pc each instruction leaves when its cycle completes, from the state at the start of the
cycle, where pc is the instruction's own address (R28). -/
def pcAfter (s : State) : Instr → Option Word
  | .jp nnn => some (targetOf nnn)
  | .call nnn => some (targetOf nnn)
  | .ret => s.S.getLast?
  | .se x nn => some (if s.getV x = nn then s.pc + 4 else s.pc + 2)
  | .cls => some (s.pc + 2)
  | .ldImm _ _ => some (s.pc + 2)
  | .addImm _ _ => some (s.pc + 2)
  | .andReg _ _ => some (s.pc + 2)
  | .ldI _ => some (s.pc + 2)
  | .rnd _ _ => some (s.pc + 2)
  | .drw _ _ _ => some (s.pc + 2)
  | .ldVxDt _ => some (s.pc + 2)
  | .ldDtVx _ => some (s.pc + 2)
  | .ldFVx _ => some (s.pc + 2)
  | .ldBVx _ => some (s.pc + 2)
  | .ldVxI _ => some (s.pc + 2)

/-- The instruction writes I (R25). -/
def writesIndex : Instr → Bool
  | .ldI _ => true
  | .ldFVx _ => true
  | .cls => false
  | .ret => false
  | .jp _ => false
  | .call _ => false
  | .se _ _ => false
  | .ldImm _ _ => false
  | .addImm _ _ => false
  | .andReg _ _ => false
  | .rnd _ _ => false
  | .drw _ _ _ => false
  | .ldVxDt _ => false
  | .ldDtVx _ => false
  | .ldBVx _ => false
  | .ldVxI _ => false

/-- The instruction writes DT (R130). -/
def writesTimer : Instr → Bool
  | .ldDtVx _ => true
  | .cls => false
  | .ret => false
  | .jp _ => false
  | .call _ => false
  | .se _ _ => false
  | .ldImm _ _ => false
  | .addImm _ _ => false
  | .andReg _ _ => false
  | .ldI _ => false
  | .rnd _ _ => false
  | .drw _ _ _ => false
  | .ldVxDt _ => false
  | .ldFVx _ => false
  | .ldBVx _ => false
  | .ldVxI _ => false

/-- The instruction writes the display (R46). -/
def writesDisplay : Instr → Bool
  | .cls => true
  | .drw _ _ _ => true
  | .ret => false
  | .jp _ => false
  | .call _ => false
  | .se _ _ => false
  | .ldImm _ _ => false
  | .addImm _ _ => false
  | .andReg _ _ => false
  | .ldI _ => false
  | .rnd _ _ => false
  | .ldVxDt _ => false
  | .ldDtVx _ => false
  | .ldFVx _ => false
  | .ldBVx _ => false
  | .ldVxI _ => false

/-- The instruction writes the call stack (R46). -/
def writesStack : Instr → Bool
  | .ret => true
  | .call _ => true
  | .cls => false
  | .jp _ => false
  | .se _ _ => false
  | .ldImm _ _ => false
  | .addImm _ _ => false
  | .andReg _ _ => false
  | .ldI _ => false
  | .rnd _ _ => false
  | .drw _ _ _ => false
  | .ldVxDt _ => false
  | .ldDtVx _ => false
  | .ldFVx _ => false
  | .ldBVx _ => false
  | .ldVxI _ => false

/-! ### Host transactions (R159) -/

/-- The transactions that execute an instruction (R166, R167). -/
def HostCall.executes : HostCall → Bool
  | .advance => true
  | .decode _ => true
  | .displayWidth => false
  | .displayHeight => false
  | .memorySize => false
  | .loadRom _ => false
  | .reset => false
  | .getMemoryByte _ => false
  | .setMemoryByte _ _ => false
  | .getRam _ => false
  | .getV _ => false
  | .setV _ _ => false
  | .getFlag => false
  | .setFlag _ => false
  | .getI => false
  | .setI _ => false
  | .getPc => false
  | .setPc _ => false
  | .getPixel _ _ => false
  | .setPixel _ _ _ => false
  | .clearScreen => false
  | .fetchInstruction => false
  | .setSeed _ => false
  | .timerStart => false
  | .timerStop => false
  | .displayStr => false
  | .stateDump => false

/-! ### Ends of a run (R192) -/

/-- A fault has been recorded: the run has failed. -/
def State.faulted (s : State) : Bool := s.fault.isSome

/-- The instruction at pc is `1NNN` with `NNN = pc`. -/
def State.selfLoop (s : State) : Bool :=
  match fetch s with
  | .ok op => decide (decode op = .instr (.jp (s.pc.setWidth 12))) && decide (s.pc.toNat < 4096)
  | .error _ => false

/-- The next state of an outcome, where there is one. -/
def nextOf : Result → Option State
  | .next t => some t
  | .fault _ => none
  | .refused _ => none

/-- The fault of an outcome, where there is one. -/
def faultOf : Result → Option Fault
  | .next _ => none
  | .fault f => some f
  | .refused _ => none

/-- `n` steps from `s` never fault and are never refused. -/
def safeFor : Nat → State → Bool
  | 0, _ => true
  | n + 1, s =>
    match step s with
    | .next t => safeFor n t
    | .fault _ => false
    | .refused _ => false

end Sys2Proof.Machine
end

