-- ==== Sys2Proof/Certificates/Slice0/Obligations.lean ====
section
/-! DEFINITION. The statements about the model, from the numbered rules of spec/. In every statement
about `exec`, pc already holds the fetched address plus 2 (40_cycle.md R82); the step around it is
`StepRunsTheDecodedInstruction`. -/

open Sys2Proof Sys2Proof.Machine

/-! ### The instructions: encoding, completion, effect and frame -/

/-- 41_display.md R91: 00E0 completes in every state, turns every pixel off and changes nothing
else. -/
def Obligations.ClsClearsTheDisplay : Prop :=
  decode 0x00E0#16 = .instr .cls ∧
  ∀ s : State, ∃ t, exec .cls s = .next t ∧ (∀ x y, t.pixel x y = false)
    ∧ SameVExcept noRegister s t ∧ SameMemory s t ∧ t.I = s.I ∧ t.pc = s.pc ∧ t.S = s.S
    ∧ t.DT = s.DT ∧ SameGenerator s t ∧ SameControl s t

/-- 42_control_flow.md R101 with decision D8 (log 11): 00EE on a non-empty stack completes, takes the
top of the stack as pc as it is and removes it; on an empty stack it faults with no state written. -/
def Obligations.RetPopsOrUnderflows : Prop :=
  decode 0x00EE#16 = .instr .ret ∧
  (∀ (s : State) (rest : List Word) (a : Word), s.S = rest ++ [a] →
    ∃ t, exec .ret s = .next t ∧ t.pc = a ∧ t.S = rest ∧ SameVExcept noRegister s t
      ∧ SameMemory s t ∧ SamePixels s t ∧ t.I = s.I ∧ t.DT = s.DT ∧ SameGenerator s t
      ∧ SameControl s t) ∧
  (∀ s : State, s.S = [] →
    exec .ret s = .fault (.callStackUnderflow { s with fault := some .callStackUnderflow }))

/-- 42_control_flow.md R102: 1NNN completes, leaves the 12-bit target in pc and changes nothing else;
a jump to its own address is a self-loop whose cycle changes nothing. -/
def Obligations.JpLoadsPc : Prop :=
  ∀ nnn : Addr12,
    decode (0x1000#16 ||| nnn.setWidth 16) = .instr (.jp nnn) ∧
    (∀ s : State, ∃ t, exec (.jp nnn) s = .next t ∧ t.pc.toNat = nnn.toNat
      ∧ OnlyPcAndV noRegister s t) ∧
    (∀ s : State, s.fault = none → s.pc.toNat = nnn.toNat →
      fetch s = .ok (0x1000#16 ||| nnn.setWidth 16) → advance s = .next s)

/-- 42_control_flow.md R103 with decision D9 (log 11): 2NNN completes unless the stack is bounded and
full, pushes pc and jumps; on a bounded, full stack it faults with no state written. -/
def Obligations.CallPushesOrOverflows : Prop :=
  ∀ nnn : Addr12,
    decode (0x2000#16 ||| nnn.setWidth 16) = .instr (.call nnn) ∧
    (∀ s : State, s.params.stackDepth ≠ some s.S.length →
      ∃ t, exec (.call nnn) s = .next t ∧ t.pc.toNat = nnn.toNat ∧ t.S = s.S ++ [s.pc]
        ∧ SameVExcept noRegister s t ∧ SameMemory s t ∧ SamePixels s t ∧ t.I = s.I ∧ t.DT = s.DT
        ∧ SameGenerator s t ∧ SameControl s t) ∧
    (∀ s : State, s.params.stackDepth = some s.S.length →
      exec (.call nnn) s =
        .fault (.callStackOverflow { s with fault := some .callStackOverflow }))

/-- 42_control_flow.md R104: 3XNN completes; when V[X] equals NN it adds exactly 2 more to pc, modulo
65536, and otherwise leaves pc; nothing else changes. A skip past the end of memory is no fault of the
skip: the next fetch faults. The other skips and compares, 4XNN, 5XY0 and 9XY0, are not supported. -/
def Obligations.SeSkipsOnEquality : Prop :=
  ∀ (x : Nibble) (nn : Byte),
    decode (0x3000#16 ||| (x.setWidth 16 <<< 8) ||| nn.setWidth 16) = .instr (.se x nn) ∧
    (∀ s : State, ∃ t, exec (.se x nn) s = .next t
      ∧ (s.getV x = nn → t.pc.toNat = (s.pc.toNat + 2) % 65536)
      ∧ (s.getV x ≠ nn → t.pc = s.pc)
      ∧ (s.params.memSize ≤ t.pc.toNat → fetch t = .error t.pc.toNat)
      ∧ OnlyPcAndV noRegister s t) ∧
    decode (0x4000#16 ||| (x.setWidth 16 <<< 8) ||| nn.setWidth 16)
      = .opcodeNotSupported (0x4000#16 ||| (x.setWidth 16 <<< 8) ||| nn.setWidth 16) ∧
    ∀ y : Nibble,
      decode (0x5000#16 ||| (x.setWidth 16 <<< 8) ||| (y.setWidth 16 <<< 4))
        = .opcodeNotSupported (0x5000#16 ||| (x.setWidth 16 <<< 8) ||| (y.setWidth 16 <<< 4)) ∧
      decode (0x9000#16 ||| (x.setWidth 16 <<< 8) ||| (y.setWidth 16 <<< 4))
        = .opcodeNotSupported (0x9000#16 ||| (x.setWidth 16 <<< 8) ||| (y.setWidth 16 <<< 4))

/-- 43_alu.md R111: 6XNN completes and writes NN to V[X] and to nothing else. -/
def Obligations.LdImmLoadsItsRegister : Prop :=
  ∀ (x : Nibble) (nn : Byte),
    decode (0x6000#16 ||| (x.setWidth 16 <<< 8) ||| nn.setWidth 16) = .instr (.ldImm x nn) ∧
    ∀ s : State, ∃ t, exec (.ldImm x nn) s = .next t ∧ t.getV x = nn ∧ t.pc = s.pc
      ∧ OnlyPcAndV (onlyRegister x) s t

/-- 43_alu.md R112: 7XNN completes and adds NN to V[X] modulo 256, writing no flag and no other
register; two applications add twice NN. -/
def Obligations.AddImmWrapsModulo256 : Prop :=
  ∀ (x : Nibble) (nn : Byte),
    decode (0x7000#16 ||| (x.setWidth 16 <<< 8) ||| nn.setWidth 16) = .instr (.addImm x nn) ∧
    ∀ s : State, ∃ t, exec (.addImm x nn) s = .next t
      ∧ (t.getV x).toNat = ((s.getV x).toNat + nn.toNat) % 256 ∧ t.pc = s.pc
      ∧ OnlyPcAndV (onlyRegister x) s t
      ∧ ∃ u, exec (.addImm x nn) t = .next u
        ∧ (u.getV x).toNat = ((s.getV x).toNat + 2 * nn.toNat) % 256

/-- 43_alu.md R113: 8XY2 completes and writes V[X] & V[Y] to V[X] and to no other register, V[Y]
included; with X = Y nothing changes. -/
def Obligations.AndMasksItsRegister : Prop :=
  ∀ x y : Nibble,
    decode (0x8002#16 ||| (x.setWidth 16 <<< 8) ||| (y.setWidth 16 <<< 4))
      = .instr (.andReg x y) ∧
    ∀ s : State, ∃ t, exec (.andReg x y) s = .next t
      ∧ (∀ k, k < 8 → (t.getV x).getLsbD k = ((s.getV x).getLsbD k && (s.getV y).getLsbD k))
      ∧ (x = y → t.getV x = s.getV x) ∧ (x ≠ y → t.getV y = s.getV y) ∧ t.pc = s.pc
      ∧ OnlyPcAndV (onlyRegister x) s t

/-- 44_index_memory.md R121: ANNN completes and writes the 12-bit address to I and to nothing
else. -/
def Obligations.LdILoadsTheIndex : Prop :=
  ∀ nnn : Addr12,
    decode (0xA000#16 ||| nnn.setWidth 16) = .instr (.ldI nnn) ∧
    ∀ s : State, ∃ t, exec (.ldI nnn) s = .next t ∧ t.I.toNat = nnn.toNat ∧ t.I.toNat ≤ 0x0FFF
      ∧ t.pc = s.pc ∧ SameVExcept noRegister s t ∧ SameMemory s t ∧ SamePixels s t ∧ t.S = s.S
      ∧ t.DT = s.DT ∧ SameGenerator s t ∧ SameControl s t

/-- 44_index_memory.md R122: FX29 completes and writes V[X] itself, not a font address, to I and to
nothing else. -/
def Obligations.LdFLoadsTheRegisterValue : Prop :=
  ∀ x : Nibble,
    decode (0xF029#16 ||| (x.setWidth 16 <<< 8)) = .instr (.ldFVx x) ∧
    ∀ s : State, ∃ t, exec (.ldFVx x) s = .next t ∧ t.I.toNat = (s.getV x).toNat
      ∧ t.I.toNat ≤ 0x00FF ∧ t.pc = s.pc ∧ SameVExcept noRegister s t ∧ SameMemory s t
      ∧ SamePixels s t ∧ t.S = s.S ∧ t.DT = s.DT ∧ SameGenerator s t ∧ SameControl s t

/-- 45_delay_timer.md R131: FX07 completes and writes DT to V[X]; DT is unchanged by the read. -/
def Obligations.LdVxDtReadsTheTimer : Prop :=
  ∀ x : Nibble,
    decode (0xF007#16 ||| (x.setWidth 16 <<< 8)) = .instr (.ldVxDt x) ∧
    ∀ s : State, ∃ t, exec (.ldVxDt x) s = .next t ∧ t.getV x = s.DT ∧ t.pc = s.pc
      ∧ OnlyPcAndV (onlyRegister x) s t

/-- 45_delay_timer.md R132: FX15 completes and writes V[X] to DT and to nothing else; the timer task
is neither started nor stopped. -/
def Obligations.LdDtVxWritesTheTimer : Prop :=
  ∀ x : Nibble,
    decode (0xF015#16 ||| (x.setWidth 16 <<< 8)) = .instr (.ldDtVx x) ∧
    ∀ s : State, ∃ t, exec (.ldDtVx x) s = .next t ∧ t.DT = s.getV x ∧ t.pc = s.pc
      ∧ SameVExcept noRegister s t ∧ SameMemory s t ∧ SamePixels s t ∧ t.I = s.I ∧ t.S = s.S
      ∧ SameGenerator s t ∧ SameControl s t

/-- 43_alu.md R115, with the free byte of log 5 and log 6: CXNN completes and writes the one byte
`random_byte()` answers, masked by NN, to V[X], a submask of NN whatever the byte, and 0 for NN = 0;
the generator (where RNG_NEXT is absent, one of which nothing is known) is advanced exactly once, NN = 0
included. -/
def Obligations.RndMasksOneRandomByte : Prop :=
  ∀ (x : Nibble) (nn : Byte),
    decode (0xC000#16 ||| (x.setWidth 16 <<< 8) ||| nn.setWidth 16) = .instr (.rnd x nn) ∧
    ∀ s : State, ∃ t, exec (.rnd x nn) s = .next t ∧ t.getV x = (randomByte s &&& nn)
      ∧ (∀ k, (t.getV x).getLsbD k = true → nn.getLsbD k = true) ∧ (nn = 0 → t.getV x = 0)
      ∧ t.rng = (generatorStep s.generator s.rng).2 ∧ t.draws = s.draws + 1
      ∧ SameVExcept (onlyRegister x) s t ∧ SameMemory s t ∧ SamePixels s t ∧ t.I = s.I
      ∧ t.pc = s.pc ∧ t.S = s.S ∧ t.DT = s.DT ∧ SameControl s t

/-- 43_alu.md R116, decision D19 (log 5, log 6): without RNG_NEXT, the default, two executions take two
different free draws, whatever the seed between them; with RNG_NEXT the two bytes after a seed are those
the function gives at the seed's state and at the state after it, and where its rows name these states
and bytes, exactly the bytes named. -/
def Obligations.RandomBytesAreFreshDrawsOrTheGenerators : Prop :=
  ∀ (s : State) (x y : Nibble) (seed : Nat),
    (s.params.rngNext = none →
      ∃ t u, exec (.rnd x 0xFF#8) s = .next t ∧ t.getV x = Config.draw8 s.draws
        ∧ exec (.rnd y 0xFF#8) (transact (.setSeed seed) t).1 = .next u
        ∧ u.getV y = Config.draw8 (s.draws + 1)) ∧
    ∀ g, s.params.rngNext = some g → seedAccepted s.params seed = true →
      ∃ t u, exec (.rnd x 0xFF#8) (transact (.setSeed seed) s).1 = .next t
        ∧ t.getV x = (generatorStep g (generatorSeed g seed)).1
        ∧ exec (.rnd y 0xFF#8) t = .next u
        ∧ u.getV y = (generatorStep g (generatorStep g (generatorSeed g seed)).2).1
        ∧ ∀ k₀ k₁ k₂ b₀ b₁, g.seedRows.lookup seed = some k₀ → g.nextRows.lookup k₀ = some (b₀, k₁) →
          g.nextRows.lookup k₁ = some (b₁, k₂) → t.getV x = b₀ ∧ u.getV y = b₁ ∧ u.rng = k₂

/-- 44_index_memory.md R124 where the three bytes lie in memory: FX33 completes, stores the hundreds,
tens and ones digits of V[X] at I, I+1 and I+2, and changes nothing else, no other byte included. -/
def Obligations.LdBStoresTheDigits : Prop :=
  ∀ x : Nibble,
    decode (0xF033#16 ||| (x.setWidth 16 <<< 8)) = .instr (.ldBVx x) ∧
    ∀ s : State, s.Inv → s.I.toNat + 2 < s.params.memSize →
      ∃ t, exec (.ldBVx x) s = .next t ∧
        (∀ a, effectiveAddress s.I 0 = a →
          (t.readByte a).toNat = (s.getV x).toNat / 100
          ∧ (t.readByte (a + 1)).toNat = (s.getV x).toNat / 10 % 10
          ∧ (t.readByte (a + 2)).toNat = (s.getV x).toNat % 10
          ∧ ∀ c, c < a ∨ a + 3 ≤ c → t.readByte c = s.readByte c)
        ∧ effectiveAddress s.I 0 = s.I.toNat
        ∧ SameVExcept noRegister s t ∧ SamePixels s t ∧ t.I = s.I ∧ t.pc = s.pc ∧ t.S = s.S
        ∧ t.DT = s.DT ∧ SameGenerator s t ∧ SameControl s t

/-- 44_index_memory.md R125 where the X+1 bytes lie in memory: FX65 completes, loads V0 to VX from
memory at I, leaves the registers above X and changes nothing else, I included. -/
def Obligations.LdVxILoadsTheBlock : Prop :=
  ∀ x : Nibble,
    decode (0xF065#16 ||| (x.setWidth 16 <<< 8)) = .instr (.ldVxI x) ∧
    ∀ s : State, s.I.toNat + x.toNat < s.params.memSize →
      ∃ t, exec (.ldVxI x) s = .next t
        ∧ (∀ r : Nibble, r.toNat ≤ x.toNat → t.getV r = s.readByte (s.I.toNat + r.toNat))
        ∧ t.pc = s.pc
        ∧ OnlyPcAndV (fun r => r.toNat ≤ x.toNat) s t

/-- 44_index_memory.md R123 to R125, decisions D6, D7 and D37 (log 10): an FX33 or FX65 that reaches
past the end of memory faults at the lowest such address and writes nothing. -/
def Obligations.BlockAccessesFaultAtTheLowestAddress : Prop :=
  ∀ (x : Nibble) (s : State),
    (s.params.memSize ≤ s.I.toNat + 2 →
      exec (.ldBVx x) s = .fault (.addressOutOfRange (max s.I.toNat s.params.memSize)
        { s with fault := some (.addressOutOfRange (max s.I.toNat s.params.memSize)) })) ∧
    (s.params.memSize ≤ s.I.toNat + x.toNat →
      exec (.ldVxI x) s = .fault (.addressOutOfRange (max s.I.toNat s.params.memSize)
        { s with fault := some (.addressOutOfRange (max s.I.toNat s.params.memSize)) }))

/-- 41_display.md R94 (which the spec derives from R93): where the rows on screen lie in memory, DXYN
completes; with the anchor (V[X] mod W, V[Y] mod H), R = min(N, H - y0) and C = min(8, W - x0), the
pixels of the R by C rectangle are XORed with the sprite's bits, every other pixel is unchanged, VF
becomes 1 when some pixel of the rectangle that was on has a sprite bit of 1 and is unchanged
otherwise, and no other state changes. N = 0 reads no memory, so it completes whatever I holds. -/
def Obligations.DrwMeetsItsClosedForm : Prop :=
  ∀ x y n : Nibble,
    decode (0xD000#16 ||| (x.setWidth 16 <<< 8) ||| (y.setWidth 16 <<< 4) ||| n.setWidth 16)
      = .instr (.drw x y n) ∧
    ∀ (s : State) (x0 y0 R C : Nat), s.Inv →
      x0 = (s.getV x).toNat % s.params.width → y0 = (s.getV y).toNat % s.params.height →
      R = min n.toNat (s.params.height - y0) → C = min 8 (s.params.width - x0) →
      (R = 0 ∨ s.I.toNat + R ≤ s.params.memSize) →
      ∃ t, exec (.drw x y n) s = .next t
        ∧ (∀ px py, x0 ≤ px → px < x0 + C → y0 ≤ py → py < y0 + R →
            t.pixel px py =
              (s.pixel px py ^^ (s.readByte (s.I.toNat + (py - y0))).getLsbD (7 - (px - x0))))
        ∧ (∀ px py, ¬ (x0 ≤ px ∧ px < x0 + C ∧ y0 ≤ py ∧ py < y0 + R) →
            t.pixel px py = s.pixel px py)
        ∧ ((∃ px py, x0 ≤ px ∧ px < x0 + C ∧ y0 ≤ py ∧ py < y0 + R ∧ s.pixel px py = true
              ∧ (s.readByte (s.I.toNat + (py - y0))).getLsbD (7 - (px - x0)) = true) →
            t.getV 0xF#4 = 1)
        ∧ (¬ (∃ px py, x0 ≤ px ∧ px < x0 + C ∧ y0 ≤ py ∧ py < y0 + R ∧ s.pixel px py = true
              ∧ (s.readByte (s.I.toNat + (py - y0))).getLsbD (7 - (px - x0)) = true) →
            t.getV 0xF#4 = s.getV 0xF#4)
        ∧ SameVExcept (onlyRegister 0xF#4) s t ∧ SameMemory s t ∧ t.I = s.I ∧ t.pc = s.pc
        ∧ t.S = s.S ∧ t.DT = s.DT ∧ SameGenerator s t ∧ SameControl s t

/-- 41_display.md R93, decisions D6 and D7 (log 10): a DXYN with a row on screen whose address is
past the end of memory faults at the lowest such address, with no pixel and no VF written. -/
def Obligations.DrwFaultsBeforeAnyWrite : Prop :=
  ∀ (x y n : Nibble) (s : State) (R : Nat),
    R = min n.toNat (s.params.height - (s.getV y).toNat % s.params.height) →
    0 < R → s.params.memSize < s.I.toNat + R →
    exec (.drw x y n) s = .fault (.addressOutOfRange (max s.I.toNat s.params.memSize)
      { s with fault := some (.addressOutOfRange (max s.I.toNat s.params.memSize)) })

/-- 41_display.md R92: a pixel collides, that is was on before the draw and is off after it, exactly
when it was on and lies under a sprite bit of 1; after a draw VF is 1 if at least one pixel collided,
and otherwise holds the value it had. -/
def Obligations.VFRecordsACollisionAndIsNeverCleared : Prop :=
  ∀ (x y n : Nibble) (s t : State), s.Inv → exec (.drw x y n) s = .next t →
    ((∃ px py, s.pixel px py = true ∧ t.pixel px py = false) → t.getV 0xF#4 = 1) ∧
    ((∀ px py, s.pixel px py = true → t.pixel px py = true) → t.getV 0xF#4 = s.getV 0xF#4) ∧
    ∀ x0 y0 px py, x0 = (s.getV x).toNat % s.params.width →
      y0 = (s.getV y).toNat % s.params.height →
      ((s.pixel px py = true ∧ t.pixel px py = false) ↔
        (x0 ≤ px ∧ px < x0 + min 8 (s.params.width - x0)
          ∧ y0 ≤ py ∧ py < y0 + min n.toNat (s.params.height - y0) ∧ s.pixel px py = true
          ∧ (s.readByte (s.I.toNat + (py - y0))).getLsbD (7 - (px - x0)) = true))

/-- 41_display.md R95 item 11 (which the spec derives): drawing the same sprite twice at the same
anchor restores every pixel; the second draw sets VF to 1 exactly when the first turned a pixel on,
and otherwise leaves VF. -/
def Obligations.DrwTwiceRestoresTheDisplay : Prop :=
  ∀ (x y n : Nibble) (s t : State), s.Inv → exec (.drw x y n) s = .next t →
    (t.getV x).toNat % s.params.width = (s.getV x).toNat % s.params.width →
    (t.getV y).toNat % s.params.height = (s.getV y).toNat % s.params.height →
    ∃ u, exec (.drw x y n) t = .next u ∧ SamePixels s u
      ∧ ((∃ px py, s.pixel px py = false ∧ t.pixel px py = true) → u.getV 0xF#4 = 1)
      ∧ ((∀ px py, s.pixel px py = false → t.pixel px py = false) →
          u.getV 0xF#4 = t.getV 0xF#4)

/-- 42_control_flow.md R101 and R103 together: a RET that finds the stack a CALL left goes to the
address after the call and leaves the stack the CALL found. -/
def Obligations.RetUndoesCall : Prop :=
  ∀ (nnn : Addr12) (s t u : State), exec (.call nnn) s = .next t → u.S = t.S →
    ∃ v, exec .ret u = .next v ∧ v.pc = s.pc ∧ v.S = s.S

/-! ### Encoding and decoding -/

/-- A sanity statement: words of 95_test_vectors.md ("Decoding") and the examples of the instruction
rules decode to the instructions they stand for, or to none. -/
def Obligations.SpecWordsDecode : Prop :=
  decode 0x00E0#16 = .instr .cls ∧ decode 0x00EE#16 = .instr .ret ∧
  decode 0x1F5D#16 = .instr (.jp 0xF5D#12) ∧ decode 0x220A#16 = .instr (.call 0x20A#12) ∧
  decode 0x3006#16 = .instr (.se 0x0#4 0x06#8) ∧ decode 0x603F#16 = .instr (.ldImm 0x0#4 0x3F#8) ∧
  decode 0x7038#16 = .instr (.addImm 0x0#4 0x38#8) ∧
  decode 0x8122#16 = .instr (.andReg 0x1#4 0x2#4) ∧ decode 0xABFA#16 = .instr (.ldI 0xBFA#12) ∧
  decode 0xC70F#16 = .instr (.rnd 0x7#4 0x0F#8) ∧
  decode 0xD012#16 = .instr (.drw 0x0#4 0x1#4 0x2#4) ∧ decode 0xF107#16 = .instr (.ldVxDt 0x1#4) ∧
  decode 0xFA15#16 = .instr (.ldDtVx 0xA#4) ∧ decode 0xF329#16 = .instr (.ldFVx 0x3#4) ∧
  decode 0xF333#16 = .instr (.ldBVx 0x3#4) ∧ decode 0xFF65#16 = .instr (.ldVxI 0xF#4) ∧
  decode 0x0000#16 = .opcodeNotSupported 0x0000#16 ∧
  decode 0x01E0#16 = .opcodeNotSupported 0x01E0#16 ∧
  decode 0x8124#16 = .opcodeNotSupported 0x8124#16 ∧
  decode 0xF155#16 = .opcodeNotSupported 0xF155#16

/-- 30_encoding.md R64, R65 and R67: decoding the encoding of an instruction gives it back, with
every operand at every value, from the word and from its two big-endian bytes, whatever follows. -/
def Obligations.DecodeOfEncodeIsTheInstruction : Prop :=
  ∀ (i : Instr) (rest : List Byte), i.wellFormed = true →
    decode (encode i) = .instr i ∧ decodeBytes (encodeBytes i ++ rest) = .instr i rest

/-- 30_encoding.md R67 and R77: every word that decodes is the encoding of the instruction it decodes
to, so no two words stand for one instruction. -/
def Obligations.EncodeOfDecodeIsTheWord : Prop :=
  ∀ (op : Word) (i : Instr), decode op = .instr i → encode i = op

/-- 30_encoding.md R66: a word matches an instruction when `(op & mask) == match` for its row; exactly
one row matches, or none, and a word that matches no row raises OpcodeNotSupported(op). -/
def Obligations.ExactlyOneRowMatchesOrNone : Prop :=
  ∀ op : Word,
    (∀ r₁ ∈ opcodeTable, ∀ r₂ ∈ opcodeTable,
      op &&& r₁.mask = r₁.pattern → op &&& r₂.mask = r₂.pattern → r₁ = r₂) ∧
    (∀ r ∈ opcodeTable, op &&& r.mask = r.pattern → ∃ i, decode op = .instr i ∧ opcodeRow i = r) ∧
    (∀ i, decode op = .instr i →
      opcodeRow i ∈ opcodeTable ∧ op &&& (opcodeRow i).mask = (opcodeRow i).pattern) ∧
    ((∀ r ∈ opcodeTable, op &&& r.mask ≠ r.pattern) →
      decode op = .opcodeNotSupported op ∧
      ∀ s : State, execute op s = .fault (.opcodeNotSupported op
        { s with fault := some (.opcodeNotSupported op) }))

/-- 30_encoding.md R71: the illegal words are exactly those of classes 4, 5, 9, B and E, the words of
class 0 other than 00E0 and 00EE, the words of class 8 whose low nibble is not 2, and the words of
class F whose low byte is not 07, 15, 29, 33 or 65; a cycle that fetches one faults with
OpcodeNotSupported(op), and the pc pre-advance is the only architectural state it writes. -/
def Obligations.IllegalWordsRaiseOpcodeNotSupported : Prop :=
  ∀ op : Word,
    (decode op = .opcodeNotSupported op ↔
      (op.toNat / 4096 ∈ [0x4, 0x5, 0x9, 0xB, 0xE]
        ∨ (op.toNat / 4096 = 0x0 ∧ op.toNat ≠ 0x00E0 ∧ op.toNat ≠ 0x00EE)
        ∨ (op.toNat / 4096 = 0x8 ∧ op.toNat % 16 ≠ 2)
        ∨ (op.toNat / 4096 = 0xF ∧ op.toNat % 256 ∉ [0x07, 0x15, 0x29, 0x33, 0x65]))) ∧
    (∀ s : State, s.fault = none → fetch s = .ok op → decode op = .opcodeNotSupported op →
      advance s = .fault (.opcodeNotSupported op
        { s with pc := s.pc + 2, fault := some (.opcodeNotSupported op) }))

/-! ### The cycle and the step -/

/-- 40_cycle.md R80 and R81, decision D6 (log 10): the fetch answers the big-endian word at pc and
pc + 1 where both lie in memory, whatever the parity of pc; otherwise it answers the address of the
first byte that does not, pc + 1 exact and not wrapped. -/
def Obligations.FetchIsBigEndianAndChecked : Prop :=
  ∀ s : State,
    (s.pc.toNat + 1 < s.params.memSize → ∃ op, fetch s = .ok op
      ∧ op.toNat = (s.readByte s.pc.toNat).toNat * 256 + (s.readByte (s.pc.toNat + 1)).toNat) ∧
    (s.pc.toNat + 1 = s.params.memSize → fetch s = .error (s.pc.toNat + 1)) ∧
    (s.params.memSize ≤ s.pc.toNat → fetch s = .error s.pc.toNat)

/-- 40_cycle.md R81 and 60_exceptions.md R150, decision D6 (log 10): a cycle whose fetch faults
records the fault and writes nothing else; pc is not advanced. -/
def Obligations.FetchFaultLeavesPc : Prop :=
  ∀ s : State, s.fault = none →
    (s.pc.toNat + 1 = s.params.memSize →
      advance s = .fault (.addressOutOfRange (s.pc.toNat + 1)
        { s with fault := some (.addressOutOfRange (s.pc.toNat + 1)) })) ∧
    (s.params.memSize ≤ s.pc.toNat →
      advance s = .fault (.addressOutOfRange s.pc.toNat
        { s with fault := some (.addressOutOfRange s.pc.toNat) }))

/-- 40_cycle.md R82 and 45_delay_timer.md R133 (the free tick count is the model's, log 7): when the
bytes at pc decode to an instruction, a step executes it with pc moved past it, the ticks that fall
before the cycle delivered first while the timer task runs, and none while it does not. -/
def Obligations.StepRunsTheDecodedInstruction : Prop :=
  ∀ (s : State) (i : Instr) (rest : List Byte), s.fault = none →
    s.pc.toNat + 1 < s.params.memSize →
    decodeBytes (s.readByte s.pc.toNat :: s.readByte (s.pc.toNat + 1) :: rest) = .instr i rest →
    (s.timerRunning = false → step s = exec i { s with pc := s.pc + 2 }) ∧
    (s.timerRunning = true →
      step s = exec i { ticks (Config.ticksBefore s.tickIndex) s with
        pc := s.pc + 2, tickIndex := s.tickIndex + 1 })

/-- The model's withFetchWord (log 3, log 22): an instruction's word stored where the next step
fetches is the word it fetches, and the step runs it. -/
def Obligations.StoredFetchWordIsRun : Prop :=
  ∀ (s : State) (i : Instr), s.Inv → s.fault = none → s.timerRunning = false →
    s.pc.toNat + 1 < s.params.memSize →
    step (s.withFetchWord 16 (encode i).toNat) =
      exec i { s.withFetchWord 16 (encode i).toNat with pc := s.pc + 2 }

/-- 10_state.md R28: an instruction executes with pc at its own address plus 2, and its cycle leaves
pc as the table says, from that address; an instruction that faults in decode or execute leaves that address plus 2, a fetch that faults the
address itself. -/
def Obligations.PcFollowsItsTable : Prop :=
  ∀ s : State,
    (∀ (op : Word) (i : Instr) (t : State), fetch s = .ok op → decode op = .instr i →
      advance s = .next t →
      exec i { s with pc := s.pc + 2 } = .next t ∧ some t.pc = pcAfter s i) ∧
    (∀ (op : Word) (f : Fault), fetch s = .ok op → advance s = .fault f →
      f.after.pc = s.pc + 2) ∧
    (∀ (a : Nat) (f : Fault), fetch s = .error a → advance s = .fault f → f.after.pc = s.pc)

/-- 42_control_flow.md R102 and 70_reset_and_hazards.md R192 (decision D31; the tick counter is the
model's, log 7): at a self-loop every later step leaves the whole state unchanged, apart from ticks,
and stays in the self-loop. -/
def Obligations.SelfLoopChangesOnlyTheTimer : Prop :=
  ∀ s : State, s.fault = none → s.selfLoop = true →
    ∃ t, step s = .next t ∧ t = { s with DT := t.DT, tickIndex := t.tickIndex }
      ∧ t.DT.toNat ≤ s.DT.toNat ∧ (s.timerRunning = false → t = s) ∧ t.selfLoop = true

/-! ### Faults -/

/-- 40_cycle.md R84, decision D21 (log 9): while `fault` is set a cycle and the host's decode port
are refused and change nothing, and no host transaction and no tick clears it, `reset()` included. -/
def Obligations.FaultIsStickyAndGates : Prop :=
  ∀ (s : State) (r : FaultRecord), s.fault = some r →
    step s = .refused (.faultPending r) ∧ transact .advance s = (s, .refused) ∧
    (∀ op, transact (.decode op) s = (s, .refused)) ∧
    (∀ c, (transact c s).1.fault = some r) ∧ (tick s).fault = some r

/-- 60_exceptions.md R150, decision D7 (log 10): faults are precise. After a fetch fault only `fault`
has changed; after a decode or execute fault only `fault` and pc, which holds the fetched address
plus 2; after a fault of the host's decode port only `fault`. -/
def Obligations.FaultsArePrecise : Prop :=
  ∀ s : State, s.fault = none →
    (∀ (a : Nat) (f : Fault), fetch s = .error a → advance s = .fault f →
      f.after = { s with fault := some f.record }) ∧
    (∀ (op : Word) (f : Fault), fetch s = .ok op → advance s = .fault f →
      f.after = { s with pc := s.pc + 2, fault := some f.record }) ∧
    (∀ (op : Word) (r : FaultRecord) (t : State), transact (.decode op) s = (t, .faulted r) →
      t = { s with fault := some r })

/-- 60_exceptions.md R142 (which the spec derives) and R149: at the fetch only AddressOutOfRange, of
the byte the fetch reports; a word outside the opcode map OpcodeNotSupported; and of the instructions
only 00EE with an empty stack, 2NNN with a bounded, full one, and DXYN, FX33 and FX65 when one of the
min(N, H - y0), 3 or X+1 bytes they access from I lies at or past MEM_SIZE, the record naming the lowest
such byte. -/
def Obligations.EachInstructionFaultsOnlyAsTabled : Prop :=
  (∀ (i : Instr) (s : State) (f : Fault), exec i s = .fault f →
    (i = .ret ∧ s.S = [] ∧ f.record = .callStackUnderflow) ∨
    (∃ nnn, i = .call nnn ∧ s.params.stackDepth = some s.S.length
      ∧ f.record = .callStackOverflow) ∨
    ∃ n k, ((∃ x y rows, i = .drw x y rows ∧ n = min rows.toNat
          (s.params.height - (s.getV y).toNat % s.params.height)) ∨
        (∃ x, i = .ldBVx x ∧ n = 3) ∨ (∃ x, i = .ldVxI x ∧ n = x.toNat + 1)) ∧
      k < n ∧ s.params.memSize ≤ s.I.toNat + k ∧ (∀ j, j < k → s.I.toNat + j < s.params.memSize)
      ∧ f.record = .addressOutOfRange (s.I.toNat + k)) ∧
  (∀ (s : State) (f : Fault), advance s = .fault f →
    (∀ a, fetch s = .error a → f.record = .addressOutOfRange a) ∧
    (∀ op, fetch s = .ok op → decode op = .opcodeNotSupported op →
      f.record = .opcodeNotSupported op))

/-! ### Invariants -/

/-- Construction with legal parameters, whatever the launch values, gives a legal state, and so does
reset (10_state.md R20, R36; the launch values of State.reset are log 1's). -/
def Obligations.ConstructionAndResetAreLegal : Prop :=
  (∀ (p : Params) (l : Launch), p.wf = true → (State.construct p l).Inv) ∧ State.reset.Inv

/-- 10_state.md R20, R26, R31 and 20_memory.md R45: every step from a legal state leaves a legal
state, with the parameters it found: memory canonical and inside the address space, the display H
rows of W pixels, the stack within its depth. -/
def Obligations.StepKeepsTheStateLegal : Prop :=
  ∀ s t : State, s.Inv → step s = .next t → t.Inv ∧ t.params = s.params

/-- 60_exceptions.md R159 to R171: every host transaction and every tick leaves a legal state legal
and the parameters as they were, a transaction whose cycle faults included. -/
def Obligations.HostAndTimerKeepTheStateLegal : Prop :=
  ∀ s : State, s.Inv →
    (∀ c, (transact c s).1.Inv ∧ (transact c s).1.params = s.params) ∧
    (tick s).Inv ∧ (tick s).params = s.params

/-! ### Whole-machine rules -/

/-- 44_index_memory.md R126: FX33 is the only instruction that writes memory; FX55 and FX1E are not
supported. -/
def Obligations.OnlyBcdWritesMemory : Prop :=
  (∀ (i : Instr) (s t : State), exec i s = .next t → (∀ x, i ≠ .ldBVx x) →
    t.M = s.M ∧ SameMemory s t) ∧
  ∀ x : Nibble,
    decode (0xF055#16 ||| (x.setWidth 16 <<< 8))
      = .opcodeNotSupported (0xF055#16 ||| (x.setWidth 16 <<< 8)) ∧
    decode (0xF01E#16 ||| (x.setWidth 16 <<< 8))
      = .opcodeNotSupported (0xF01E#16 ||| (x.setWidth 16 <<< 8))

/-- 20_memory.md R46: no instruction but 00E0 and DXYN changes the display, and none but 2NNN and
00EE the call stack; storing a byte of memory changes neither. -/
def Obligations.DisplayAndStackHaveTheirOwnInstructions : Prop :=
  (∀ (i : Instr) (s t : State), exec i s = .next t →
    (writesDisplay i = false → t.D = s.D ∧ SamePixels s t) ∧
    (writesStack i = false → t.S = s.S)) ∧
  ∀ (s : State) (a : Nat) (v : Byte),
    (transact (.setMemoryByte a v) s).1.D = s.D ∧ (transact (.setMemoryByte a v) s).1.S = s.S

/-- 10_state.md R25: only ANNN and FX29 write I among the instructions, with at most 0x0FFF and
0x00FF; the host writes it with any value; so a value above 0x0FFF can come only from the host. -/
def Obligations.IndexIsWrittenOnlyByItsInstructions : Prop :=
  (∀ (i : Instr) (s t : State), exec i s = .next t →
    (writesIndex i = false → t.I = s.I) ∧
    (∀ nnn, i = .ldI nnn → t.I.toNat = nnn.toNat ∧ t.I.toNat ≤ 0x0FFF) ∧
    (∀ x, i = .ldFVx x → t.I.toNat = (s.getV x).toNat ∧ t.I.toNat ≤ 0x00FF)) ∧
  (∀ (w : Word) (s : State), (transact (.setI w) s).1.I = w) ∧
  (∀ (c : HostCall) (s : State), s.I.toNat ≤ 0x0FFF → (∀ w, c ≠ .setI w) →
    (transact c s).1.I.toNat ≤ 0x0FFF ∧ (tick s).I = s.I)

/-- 45_delay_timer.md R130: only FX15 among the instructions writes DT, no host transaction does
unless it executes an instruction, and a tick writes nothing but DT; FX18 is not supported. -/
def Obligations.TimerIsWrittenOnlyByFX15AndTicks : Prop :=
  (∀ (i : Instr) (s t : State), exec i s = .next t →
    (writesTimer i = false → t.DT = s.DT) ∧ (∀ x, i = .ldDtVx x → t.DT = s.getV x)) ∧
  (∀ (c : HostCall) (s : State), c.executes = false → (transact c s).1.DT = s.DT) ∧
  (∀ s : State, tick s = { s with DT := (tick s).DT }) ∧
  ∀ x : Nibble, decode (0xF018#16 ||| (x.setWidth 16 <<< 8))
    = .opcodeNotSupported (0xF018#16 ||| (x.setWidth 16 <<< 8))

/-- 10_state.md R22, the writes column: a completed instruction changes no V register outside its row
of the table, and DXYN changes VF to 1 or not at all. -/
def Obligations.VRegistersAreWrittenOnlyAsTabled : Prop :=
  ∀ (i : Instr) (s t : State), exec i s = .next t →
    SameVExcept (writesV i) s t ∧
    (∀ x y n, i = .drw x y n → t.getV 0xF#4 = 1 ∨ t.getV 0xF#4 = s.getV 0xF#4)

/-- 10_state.md R22, the reads column, as noninterference: if two states differ only in V registers
that an instruction does not read, it completes in both or in neither, everything outside the V
registers comes out the same, and each V register is either written with the same value in both or
left in both. -/
def Obligations.VRegistersAreReadOnlyAsTabled : Prop :=
  ∀ (i : Instr) (s s' t : State), s' = { s with V := s'.V } →
    (∀ r, readsV i r → s'.getV r = s.getV r) → exec i s = .next t →
    ∃ t', exec i s' = .next t' ∧ t' = { t with V := t'.V } ∧
      ∀ r, (writesV i r ∧ t'.getV r = t.getV r) ∨ (t.getV r = s.getV r ∧ t'.getV r = s'.getV r)

/-- 20_memory.md R58 and 70_reset_and_hazards.md R188 (which the spec derives): the bytes FX33 stores
are what the next fetch of those addresses sees. -/
def Obligations.StoredDigitsAreFetched : Prop :=
  ∀ (x : Nibble) (s t u : State), s.Inv → exec (.ldBVx x) s = .next t → u.M = t.M →
    u.params = t.params →
    (u.pc = s.I → ∃ op, fetch u = .ok op
      ∧ op.toNat = (s.getV x).toNat / 100 * 256 + (s.getV x).toNat / 10 % 10) ∧
    (u.pc.toNat = s.I.toNat + 1 → ∃ op, fetch u = .ok op
      ∧ op.toNat = (s.getV x).toNat / 10 % 10 * 256 + (s.getV x).toNat % 10)

/-! ### The delay timer's ticks -/

/-- 45_delay_timer.md R133, decision D16 at 0 (log 13): while the timer task runs k ticks count DT
down by k, holding it at 0, and change nothing else; while it is stopped no tick occurs. -/
def Obligations.TicksCountDownAndHoldAtZero : Prop :=
  ∀ (k : Nat) (s : State),
    (s.timerRunning = true → (ticks k s).DT.toNat = s.DT.toNat - k) ∧
    (s.timerRunning = false → ticks k s = s) ∧
    ticks k s = { s with DT := (ticks k s).DT }

/-- 60_exceptions.md R169, decision D17 (log 26): starting and stopping the timer task are
idempotent and change nothing but `timer_running`; after a stop DT holds, however many ticks are
asked for. -/
def Obligations.TimerControlIsIdempotent : Prop :=
  ∀ (s : State) (k : Nat),
    (transact .timerStart s).1 = { s with timerRunning := true } ∧
    transact .timerStart (transact .timerStart s).1 = transact .timerStart s ∧
    (transact .timerStop s).1 = { s with timerRunning := false } ∧
    transact .timerStop (transact .timerStop s).1 = transact .timerStop s ∧
    (ticks k (transact .timerStop s).1).DT = s.DT

/-! ### Construction, reset and the host port -/

/-- 70_reset_and_hazards.md R183 and 10_state.md R36, with their decisions: construction leaves every
byte 0, every pixel off, pc 0 until `reset()` (D13, log 14), the stack empty (D12, log 11), the timer
task stopped (D17, log 26), no fault (D21, log 9), and V, I and DT (D11, log 1) and rng (D19, log 2)
unspecified, that is at whatever launch values it was given. -/
def Obligations.ConstructionLeavesThePowerOnState : Prop :=
  ∀ (p : Params) (l : Launch) (s : State), s = State.construct p l →
    (∀ a, s.readByte a = 0) ∧ (∀ x y, s.pixel x y = false) ∧ s.pc.toNat = 0 ∧ s.S = [] ∧
    s.timerRunning = false ∧ s.fault = none ∧ s.V = l.V ∧ s.I = l.I ∧ s.DT = l.DT ∧ s.rng = l.rng

/-- 70_reset_and_hazards.md R180, decision D14 (log 14): `reset()` sets pc to ROM_START and writes
nothing else, `fault` included. -/
def Obligations.ResetSetsOnlyPc : Prop :=
  ∀ s t : State, s.Inv → (transact .reset s).1 = t →
    t.pc.toNat = s.params.romStart ∧ t = { s with pc := t.pc }

/-- 70_reset_and_hazards.md R184 (which the spec derives): a core stepped without `reset()` after
construction fetches 0x0000 and faults with pc = 2, whether or not an image was loaded, where the image
lies past the two bytes fetched. -/
def Obligations.AdvanceBeforeResetFaults : Prop :=
  ∀ (p : Params) (l : Launch), 2 ≤ p.memSize →
    step (State.construct p l) = .fault (.opcodeNotSupported 0x0000#16
      { State.construct p l with
        pc := 0x0002#16, fault := some (.opcodeNotSupported 0x0000#16) }) ∧
    ∀ (bytes : List Byte) (s : State), 2 ≤ p.romStart →
      s = (transact (.loadRom bytes) (State.construct p l)).1 →
      step s = .fault (.opcodeNotSupported 0x0000#16
        { s with pc := 0x0002#16, fault := some (.opcodeNotSupported 0x0000#16) })

/-- 60_exceptions.md R159 and R166, decision D25 (log 19): a transaction that answers an error or is
refused changes no state, `fault` included; `fetch_instruction` answers what the fetch finds and
changes no state. -/
def Obligations.ErrorResponsesChangeNoState : Prop :=
  ∀ (c : HostCall) (s : State),
    (∀ e, (transact c s).2 = .error e → (transact c s).1 = s) ∧
    ((transact c s).2 = .refused → (transact c s).1 = s) ∧
    (∀ op, fetch s = .ok op → transact .fetchInstruction s = (s, .word op)) ∧
    (∀ a, fetch s = .error a → transact .fetchInstruction s = (s, .error (.addressOutOfRange a)))

/-- 60_exceptions.md R161, decision D26 (log 19): an empty image answers false and a too large one
RomTooLarge, both with no change; an image that fits answers true, its bytes stand from ROM_START on,
and no other byte and nothing else changes. -/
def Obligations.LoadRomCopiesTheImage : Prop :=
  ∀ (bytes : List Byte) (s : State), s.Inv →
    (bytes = [] → transact (.loadRom bytes) s = (s, .truth false)) ∧
    (s.params.memSize < s.params.romStart + bytes.length →
      transact (.loadRom bytes) s = (s, .error .romTooLarge)) ∧
    (imageFits s.params bytes = true → ∃ t, transact (.loadRom bytes) s = (t, .truth true)
      ∧ (∀ k (h : k < bytes.length), t.readByte (s.params.romStart + k) = bytes[k])
      ∧ (∀ a, a < s.params.romStart ∨ s.params.romStart + bytes.length ≤ a →
          t.readByte a = s.readByte a)
      ∧ t = { s with M := t.M })

/-- 60_exceptions.md R162, decision D25 (log 19): the memory port reads and writes one byte inside
memory, and answers an error that changes no state past its end. -/
def Obligations.MemoryPortReadsAndWrites : Prop :=
  ∀ (a : Nat) (v : Byte) (s : State), s.Inv →
    (a < s.params.memSize →
      transact (.getMemoryByte a) s = (s, .byte (s.readByte a)) ∧
      ∃ t, transact (.setMemoryByte a v) s = (t, .done) ∧ t.readByte a = v
        ∧ (∀ c, c ≠ a → t.readByte c = s.readByte c) ∧ t = { s with M := t.M }) ∧
    (s.params.memSize ≤ a →
      transact (.getMemoryByte a) s = (s, .error (.addressOutOfRange a)) ∧
      transact (.setMemoryByte a v) s = (s, .error (.addressOutOfRange a)))

/-- 60_exceptions.md R163: `get_ram` answers a copy of memory, all of it or from ROM_START on, and
has no side effect. -/
def Obligations.GetRamCopiesMemory : Prop :=
  ∀ s : State, ∃ full program,
    transact (.getRam true) s = (s, .bytes full) ∧ full.length = s.params.memSize ∧
    (∀ k, k < s.params.memSize → full[k]? = some (s.readByte k)) ∧
    transact (.getRam false) s = (s, .bytes program) ∧
    program.length = s.params.memSize - s.params.romStart ∧
    (∀ k, s.params.romStart + k < s.params.memSize →
      program[k]? = some (s.readByte (s.params.romStart + k)))

/-- 60_exceptions.md R148: an index outside [0, 16) answers InvalidRegister, changes no state and
does not set `fault`, and no instruction can produce it; an index inside reads and writes that
register alone (R164). -/
def Obligations.RegisterPortChecksItsIndex : Prop :=
  ∀ (n : Nat) (v : Byte) (s : State),
    (16 ≤ n → transact (.getV n) s = (s, .error (.invalidRegister n)) ∧
      transact (.setV n v) s = (s, .error (.invalidRegister n))) ∧
    (∀ c : HostCall, c.executes = true → (transact c s).2 ≠ .error (.invalidRegister n)) ∧
    (∀ r : Nibble, n = r.toNat → transact (.getV n) s = (s, .byte (s.getV r)) ∧
      ∃ t, transact (.setV n v) s = (t, .done) ∧ t.getV r = v ∧ t.pc = s.pc
        ∧ OnlyPcAndV (onlyRegister r) s t)

/-- 60_exceptions.md R165, decision D25 (log 19): the pixel port reads and writes one pixel of the
display, and answers an error that changes no state outside it; `clear_screen` has the effect of
00E0. -/
def Obligations.PixelPortReadsAndWrites : Prop :=
  ∀ (x y : Nat) (b : Bool) (s : State), s.Inv →
    (x < s.params.width ∧ y < s.params.height →
      transact (.getPixel x y) s = (s, .pixel (s.pixel x y)) ∧
      ∃ t, transact (.setPixel x y b) s = (t, .done) ∧ t.pixel x y = b
        ∧ (∀ px py, ¬ (px = x ∧ py = y) → t.pixel px py = s.pixel px py)
        ∧ t = { s with D := t.D }) ∧
    (¬ (x < s.params.width ∧ y < s.params.height) →
      transact (.getPixel x y) s = (s, .error (.pixelOutOfRange x y)) ∧
      transact (.setPixel x y b) s = (s, .error (.pixelOutOfRange x y))) ∧
    exec .cls s = .next (transact .clearScreen s).1

/-- 60_exceptions.md R167 (which the spec derives, decision D29): the host's decode port executes a
word with no fetch and no pc advance: 2NNN pushes the current pc, 3XNN adds 2 to the current pc when
it skips, and every instruction but the jumps, the skip and 00EE leaves pc as it is. -/
def Obligations.DecodePortDoesNotAdvancePc : Prop :=
  ∀ (op : Word) (i : Instr) (s t : State), s.fault = none → decode op = .instr i →
    transact (.decode op) s = (t, .ok) →
    exec i s = .next t ∧
    (∀ nnn, i = .call nnn → t.S = s.S ++ [s.pc] ∧ t.pc = targetOf nnn) ∧
    (∀ x nn, i = .se x nn → t.pc = if s.getV x = nn then s.pc + 2 else s.pc) ∧
    ((∀ x nn, i ≠ .se x nn) → (∀ nnn, i ≠ .jp nnn) → (∀ nnn, i ≠ .call nnn) → i ≠ .ret →
      t.pc = s.pc)

/-- 60_exceptions.md R171, decision D34 (log 20): `display_str` answers H lines of W characters, row 0
and column 0 first, `X` for an on pixel and a space for an off one, each line ended by a newline, and
changes no state. -/
def Obligations.DisplayStrShowsEveryPixel : Prop :=
  ∀ s : State, s.Inv → ∃ text, transact .displayStr s = (s, .text text)
    ∧ text.length = s.params.height * (s.params.width + 1)
    ∧ ∀ y, y < s.params.height →
      text[y * (s.params.width + 1) + s.params.width]? = some '\n' ∧
      ∀ x, x < s.params.width →
        text[y * (s.params.width + 1) + x]? = some (if s.pixel x y then 'X' else ' ')

/-- 60_exceptions.md R168, decision D19 (the numbering of seeds and the answer to a value that is no
seed are the model's, log 6): `set_seed` replaces rng with the state for the seed and changes nothing
else; a value outside the type SEED is not accepted and changes nothing. -/
def Obligations.SetSeedReplacesTheGeneratorState : Prop :=
  ∀ (s : State) (seed : Nat),
    ((∀ n, s.params.seedCount = some n → seed < n) →
      ∃ t, transact (.setSeed seed) s = (t, .done) ∧ t.rng = generatorSeed s.generator seed
        ∧ t = { s with rng := t.rng }) ∧
    (∀ n, s.params.seedCount = some n → n ≤ seed →
      transact (.setSeed seed) s = (s, .error (.seedNotAccepted seed)))
end

