-- ==== Sys2Proof/Laws/Decode.lean ====
section
/-! SUPPORT. The fields of an opcode as numbers, the fields of a word laid out from its parts, and the
words the instruction rules write with OR and shifts. -/

namespace Sys2Proof

/-! ### Fields as numbers -/

theorem opClass_toNat (op : Word) : (opClass op).toNat = op.toNat / 4096 := by
  have := op.isLt
  simp only [opClass, BitVec.extractLsb'_toNat, Nat.shiftRight_eq_div_pow]
  omega

theorem opX_toNat (op : Word) : (opX op).toNat = op.toNat / 256 % 16 := by
  simp only [opX, BitVec.extractLsb'_toNat, Nat.shiftRight_eq_div_pow]

theorem opY_toNat (op : Word) : (opY op).toNat = op.toNat / 16 % 16 := by
  simp only [opY, BitVec.extractLsb'_toNat, Nat.shiftRight_eq_div_pow]

theorem opN_toNat (op : Word) : (opN op).toNat = op.toNat % 16 := by
  simp only [opN, BitVec.extractLsb'_toNat, Nat.shiftRight_eq_div_pow]
  omega

theorem opNN_toNat (op : Word) : (opNN op).toNat = op.toNat % 256 := by
  simp only [opNN, BitVec.extractLsb'_toNat, Nat.shiftRight_eq_div_pow]
  omega

theorem opNNN_toNat (op : Word) : (opNNN op).toNat = op.toNat % 4096 := by
  simp only [opNNN, BitVec.extractLsb'_toNat, Nat.shiftRight_eq_div_pow]
  omega

/-- A concatenation as a number: the high part shifted, plus the low part (00_scope.md R10). -/
theorem toNat_append_add {m n : Nat} (a : BitVec m) (b : BitVec n) :
    (a ++ b).toNat = a.toNat * 2 ^ n + b.toNat := by
  rw [BitVec.toNat_append, ← Nat.shiftLeft_add_eq_or_of_lt b.isLt, Nat.shiftLeft_eq]

/-- Big-endian (20_memory.md R47). -/
theorem wordOfBytes_toNat (hi lo : Byte) :
    (wordOfBytes hi lo).toNat = hi.toNat * 256 + lo.toNat :=
  toNat_append_add hi lo

/-! ### The layouts of R64 as numbers -/

theorem toNat_layoutNNN (c : Nibble) (nnn : Addr12) :
    BitVec.toNat (w := 16) (c ++ nnn) = c.toNat * 4096 + nnn.toNat :=
  toNat_append_add c nnn

theorem toNat_layoutXNN (c x : Nibble) (nn : Byte) :
    BitVec.toNat (w := 16) (c ++ x ++ nn) = c.toNat * 4096 + x.toNat * 256 + nn.toNat := by
  have h := toNat_append_add (c ++ x) nn
  rw [toNat_append_add c x] at h
  refine Eq.trans h ?_
  omega

theorem toNat_layoutXYN (c x y n : Nibble) :
    BitVec.toNat (w := 16) (c ++ x ++ y ++ n)
      = c.toNat * 4096 + x.toNat * 256 + y.toNat * 16 + n.toNat := by
  have h := toNat_append_add (c ++ x ++ y) n
  rw [toNat_append_add (c ++ x) y, toNat_append_add c x] at h
  refine Eq.trans h ?_
  omega

/-! ### The words the rules write with OR and shifts -/

/-- OR of fields that do not overlap is their sum. -/
theorem or_eq_add {a b q : Nat} (k : Nat) (ha : a = q * 2 ^ k) (hb : b < 2 ^ k) :
    a ||| b = a + b := by
  rw [ha, ← Nat.shiftLeft_eq, Nat.shiftLeft_add_eq_or_of_lt hb]

theorem toNat_shifted_field (x : Nibble) (k : Nat) (hk : k ≤ 12) :
    (x.setWidth 16 <<< k : Word).toNat = x.toNat * 2 ^ k := by
  have hx := x.isLt
  have hpow : 2 ^ k ≤ 2 ^ 12 := Nat.pow_le_pow_right (by omega) hk
  rw [BitVec.toNat_shiftLeft, BitVec.toNat_setWidth, Nat.shiftLeft_eq,
    Nat.mod_eq_of_lt (a := x.toNat) (by omega)]
  apply Nat.mod_eq_of_lt
  calc x.toNat * 2 ^ k ≤ 15 * 2 ^ 12 := Nat.mul_le_mul (by omega) hpow
    _ < 2 ^ 16 := by norm_num

/-- `c000 | NNN`. -/
theorem toNat_orNNN (c : Nibble) (nnn : Addr12) :
    (BitVec.ofNat 16 (c.toNat * 4096) ||| nnn.setWidth 16 : Word).toNat
      = c.toNat * 4096 + nnn.toNat := by
  have hc := c.isLt
  have hn := nnn.isLt
  rw [BitVec.toNat_or, BitVec.toNat_ofNat, BitVec.toNat_setWidth,
    Nat.mod_eq_of_lt (a := nnn.toNat) (by omega), Nat.mod_eq_of_lt (by omega)]
  exact or_eq_add (q := c.toNat) 12 (by omega) hn

/-- `c000 | X<<8`. -/
theorem toNat_orX (c x : Nibble) :
    (BitVec.ofNat 16 (c.toNat * 4096) ||| (x.setWidth 16 <<< 8) : Word).toNat
      = c.toNat * 4096 + x.toNat * 256 := by
  have hc := c.isLt
  have hx := x.isLt
  rw [BitVec.toNat_or, toNat_shifted_field x 8 (by omega), BitVec.toNat_ofNat,
    Nat.mod_eq_of_lt (by omega)]
  exact or_eq_add (q := c.toNat) 12 (by omega) (by omega)

/-- `c000 | X<<8 | NN`. -/
theorem toNat_orXNN (c x : Nibble) (nn : Byte) :
    (BitVec.ofNat 16 (c.toNat * 4096) ||| (x.setWidth 16 <<< 8) ||| nn.setWidth 16 : Word).toNat
      = c.toNat * 4096 + x.toNat * 256 + nn.toNat := by
  have hn := nn.isLt
  rw [BitVec.toNat_or, toNat_orX, BitVec.toNat_setWidth,
    Nat.mod_eq_of_lt (a := nn.toNat) (by omega)]
  exact or_eq_add (q := c.toNat * 16 + x.toNat) 8 (by omega) hn

/-- `c000 | X<<8 | Y<<4`. -/
theorem toNat_orXY (c x y : Nibble) :
    (BitVec.ofNat 16 (c.toNat * 4096) ||| (x.setWidth 16 <<< 8) ||| (y.setWidth 16 <<< 4) :
      Word).toNat = c.toNat * 4096 + x.toNat * 256 + y.toNat * 16 := by
  have hy := y.isLt
  rw [BitVec.toNat_or, toNat_orX, toNat_shifted_field y 4 (by omega)]
  exact or_eq_add (q := c.toNat * 16 + x.toNat) 8 (by omega) (by omega)

/-- `c000 | X<<8 | Y<<4 | N`. -/
theorem toNat_orXYN (c x y n : Nibble) :
    (BitVec.ofNat 16 (c.toNat * 4096) ||| (x.setWidth 16 <<< 8) ||| (y.setWidth 16 <<< 4)
      ||| n.setWidth 16 : Word).toNat
      = c.toNat * 4096 + x.toNat * 256 + y.toNat * 16 + n.toNat := by
  have hn := n.isLt
  rw [BitVec.toNat_or, toNat_orXY, BitVec.toNat_setWidth,
    Nat.mod_eq_of_lt (a := n.toNat) (by omega)]
  exact or_eq_add (q := c.toNat * 256 + x.toNat * 16 + y.toNat) 4 (by omega) hn

/-! ### The fields of a word with a layout of R64 -/

theorem fields_layoutNNN {c : Nibble} {nnn : Addr12} {op : Word}
    (h : op.toNat = c.toNat * 4096 + nnn.toNat) : opClass op = c ∧ opNNN op = nnn := by
  have := nnn.isLt
  constructor <;> apply BitVec.eq_of_toNat_eq
  · rw [opClass_toNat]
    omega
  · rw [opNNN_toNat]
    omega

theorem fields_layoutXNN {c x : Nibble} {nn : Byte} {op : Word}
    (h : op.toNat = c.toNat * 4096 + x.toNat * 256 + nn.toNat) :
    opClass op = c ∧ opX op = x ∧ opNN op = nn := by
  have := nn.isLt
  have := x.isLt
  refine ⟨?_, ?_, ?_⟩ <;> apply BitVec.eq_of_toNat_eq
  · rw [opClass_toNat]
    omega
  · rw [opX_toNat]
    omega
  · rw [opNN_toNat]
    omega

theorem fields_layoutXYN {c x y n : Nibble} {op : Word}
    (h : op.toNat = c.toNat * 4096 + x.toNat * 256 + y.toNat * 16 + n.toNat) :
    opClass op = c ∧ opX op = x ∧ opY op = y ∧ opN op = n := by
  have := n.isLt
  have := x.isLt
  have := y.isLt
  refine ⟨?_, ?_, ?_, ?_⟩ <;> apply BitVec.eq_of_toNat_eq
  · rw [opClass_toNat]
    omega
  · rw [opX_toNat]
    omega
  · rw [opY_toNat]
    omega
  · rw [opN_toNat]
    omega

/-! ### A word rebuilt from its fields -/

theorem layoutNNN_fields {c : Nibble} {op : Word} (h : opClass op = c) :
    (c ++ opNNN op : Word) = op := by
  apply BitVec.eq_of_toNat_eq
  refine Eq.trans (toNat_layoutNNN _ _) ?_
  rw [opNNN_toNat, ← h, opClass_toNat]
  omega

theorem layoutXNN_fields {c : Nibble} {op : Word} (h : opClass op = c) :
    (c ++ opX op ++ opNN op : Word) = op := by
  apply BitVec.eq_of_toNat_eq
  refine Eq.trans (toNat_layoutXNN _ _ _) ?_
  rw [opX_toNat, opNN_toNat, ← h, opClass_toNat]
  omega

theorem layoutXYN_fields {c : Nibble} {op : Word} (h : opClass op = c) :
    (c ++ opX op ++ opY op ++ opN op : Word) = op := by
  apply BitVec.eq_of_toNat_eq
  refine Eq.trans (toNat_layoutXYN _ _ _ _) ?_
  rw [opX_toNat, opY_toNat, opN_toNat, ← h, opClass_toNat]
  omega

/-! ### A word under the masks of R67 -/

/-- Masking an appended word masks its parts. -/
theorem and_append {m n : Nat} (a c : BitVec m) (b d : BitVec n) :
    (a ++ b) &&& (c ++ d) = (a &&& c) ++ (b &&& d) := by
  ext k hk
  simp only [BitVec.getElem_and, BitVec.getElem_append]
  split <;> rfl

theorem class_matches_12 (c : Nibble) (nnn : Addr12) :
    (c ++ nnn) &&& (0xF#4 ++ 0x000#12) = c ++ 0x000#12 := by
  rw [and_append, BitVec.and_zero]
  congr 1
  exact BitVec.and_allOnes

theorem class_matches_4_8 (c x : Nibble) (nn : Byte) :
    (c ++ x ++ nn) &&& (0xF#4 ++ 0x0#4 ++ 0x00#8) = c ++ 0x0#4 ++ 0x00#8 := by
  rw [and_append, and_append, BitVec.and_zero, BitVec.and_zero]
  congr 2
  exact BitVec.and_allOnes

theorem class_matches_nibbles (c x y n m : Nibble) :
    (c ++ x ++ y ++ n) &&& (0xF#4 ++ 0x0#4 ++ 0x0#4 ++ m) = c ++ 0x0#4 ++ 0x0#4 ++ (n &&& m) := by
  rw [and_append, and_append, and_append, BitVec.and_zero, BitVec.and_zero]
  have hc : c &&& 0xF#4 = c := BitVec.and_allOnes
  rw [hc]

theorem class_matches_low_byte (c x : Nibble) (low : Byte) :
    (c ++ x ++ low) &&& (0xF#4 ++ 0x0#4 ++ 0xFF#8) = c ++ 0x0#4 ++ low := by
  rw [and_append, and_append, BitVec.and_zero]
  have hc : c &&& 0xF#4 = c := BitVec.and_allOnes
  have hl : low &&& 0xFF#8 = low := BitVec.and_allOnes
  rw [hc, hl]

/-- The rows that fix the class nibble only. -/
theorem mask_class (op : Word) (c : Nibble) :
    op &&& 0xF000#16 = c ++ 0x000#12 ↔ opClass op = c := by
  have h : op &&& 0xF000#16 = opClass op ++ 0x000#12 := by
    conv_lhs => rw [← layoutNNN_fields (op := op) rfl]
    exact class_matches_12 _ _
  rw [h]
  constructor
  · intro h2
    rw [← (fields_layoutNNN (toNat_layoutNNN (opClass op) 0)).1,
      ← (fields_layoutNNN (toNat_layoutNNN c 0)).1]
    exact congrArg opClass h2
  · rintro rfl
    rfl

/-- The rows of class 0xF fix the class nibble and the low byte. -/
theorem mask_low_byte (op : Word) (c : Nibble) (low : Byte) :
    op &&& 0xF0FF#16 = c ++ 0x0#4 ++ low ↔ opClass op = c ∧ opNN op = low := by
  have h : op &&& 0xF0FF#16 = opClass op ++ 0x0#4 ++ opNN op := by
    conv_lhs => rw [← layoutXNN_fields (op := op) rfl]
    exact class_matches_low_byte _ _ _
  rw [h]
  constructor
  · intro h2
    have e1 := fields_layoutXNN (toNat_layoutXNN (opClass op) 0 (opNN op))
    have e2 := fields_layoutXNN (toNat_layoutXNN c 0 low)
    constructor
    · rw [← e1.1, ← e2.1]
      exact congrArg opClass h2
    · rw [← e1.2.2, ← e2.2.2]
      exact congrArg opNN h2
  · rintro ⟨rfl, rfl⟩
    rfl

/-- The row of class 0x8 fixes the class nibble and the low nibble. -/
theorem mask_low_nibble (op : Word) (c n : Nibble) :
    op &&& 0xF00F#16 = c ++ 0x0#4 ++ 0x0#4 ++ n ↔ opClass op = c ∧ opN op = n := by
  have h : op &&& 0xF00F#16 = opClass op ++ 0x0#4 ++ 0x0#4 ++ opN op := by
    conv_lhs => rw [← layoutXYN_fields (op := op) rfl]
    refine (class_matches_nibbles _ _ _ _ 0xF#4).trans ?_
    rw [show opN op &&& 0xF#4 = opN op from BitVec.and_allOnes]
  rw [h]
  constructor
  · intro h2
    have e1 := fields_layoutXYN (toNat_layoutXYN (opClass op) 0 0 (opN op))
    have e2 := fields_layoutXYN (toNat_layoutXYN c 0 0 n)
    constructor
    · rw [← e1.1, ← e2.1]
      exact congrArg opClass h2
    · rw [← e1.2.2.2, ← e2.2.2.2]
      exact congrArg opN h2
  · rintro ⟨rfl, rfl⟩
    rfl

/-- The rows of class 0x0 fix all 16 bits. -/
theorem mask_all (op w : Word) : op &&& 0xFFFF#16 = w ↔ op = w := by
  rw [show op &&& 0xFFFF#16 = op from BitVec.and_allOnes]

/-! ### The decoder's two results -/

theorem verdict_ite {P : Decoded → Prop} {c : Prop} [Decidable c] {a b : Decoded} (ha : P a)
    (hb : P b) : P (if c then a else b) := by
  split
  · exact ha
  · exact hb

/-- Decoding a word gives an instruction, or the verdict with the word itself (30_encoding.md R73). -/
theorem decode_total (op : Word) :
    (∃ i, decode op = .instr i) ∨ decode op = .opcodeNotSupported op := by
  unfold decode decodeClass0 decodeClass8 decodeClassF
  repeat' apply verdict_ite (P := fun d => (∃ i, d = .instr i) ∨ d = .opcodeNotSupported op)
  all_goals first | exact .inl ⟨_, rfl⟩ | exact .inr rfl

/-- The verdict of a failed decode carries the word itself (30_encoding.md R73). -/
theorem decode_opcodeNotSupported_word {op bad : Word} (h : decode op = .opcodeNotSupported bad) :
    bad = op := by
  rcases decode_total op with ⟨i, hi⟩ | hi
  · rw [hi] at h
    cases h
  · rw [hi] at h
    exact (Decoded.opcodeNotSupported.inj h).symm

end Sys2Proof
end

