-- ==== Sys2Proof/Laws/State.lean ====
section
/-! SUPPORT. Each named update of State: what every field and every accessor reads after it. -/

namespace Sys2Proof.Machine.State

variable (s : State)

/-! ### setV -/

@[simp] theorem setV_params (r : Nibble) (v : Byte) : (s.setV r v).params = s.params := rfl
@[simp] theorem setV_M (r : Nibble) (v : Byte) : (s.setV r v).M = s.M := rfl
@[simp] theorem setV_V (r : Nibble) (v : Byte) : (s.setV r v).V = s.V.set r.toNat v r.isLt := rfl
@[simp] theorem setV_I (r : Nibble) (v : Byte) : (s.setV r v).I = s.I := rfl
@[simp] theorem setV_pc (r : Nibble) (v : Byte) : (s.setV r v).pc = s.pc := rfl
@[simp] theorem setV_S (r : Nibble) (v : Byte) : (s.setV r v).S = s.S := rfl
@[simp] theorem setV_DT (r : Nibble) (v : Byte) : (s.setV r v).DT = s.DT := rfl
@[simp] theorem setV_D (r : Nibble) (v : Byte) : (s.setV r v).D = s.D := rfl
@[simp] theorem setV_rng (r : Nibble) (v : Byte) : (s.setV r v).rng = s.rng := rfl
@[simp] theorem setV_timerRunning (r : Nibble) (v : Byte) : (s.setV r v).timerRunning = s.timerRunning := rfl
@[simp] theorem setV_fault (r : Nibble) (v : Byte) : (s.setV r v).fault = s.fault := rfl
@[simp] theorem setV_draws (r : Nibble) (v : Byte) : (s.setV r v).draws = s.draws := rfl
@[simp] theorem setV_tickIndex (r : Nibble) (v : Byte) : (s.setV r v).tickIndex = s.tickIndex := rfl
@[simp] theorem generator_setV (r : Nibble) (v : Byte) : (s.setV r v).generator = s.generator := rfl
@[simp] theorem readByte_setV (r : Nibble) (v : Byte) (c : Nat) : (s.setV r v).readByte c = s.readByte c := rfl
@[simp] theorem pixel_setV (r : Nibble) (v : Byte) (px py : Nat) : (s.setV r v).pixel px py = s.pixel px py := rfl

/-- A register read after a write: what was written there, as before elsewhere (R21). -/
@[simp] theorem getV_setV (r q : Nibble) (v : Byte) :
    (s.setV r v).getV q = if q = r then v else s.getV q := by
  simp only [setV, getV, Vector.getElem_set, BitVec.toNat_eq, eq_comm]

/-! ### setI -/

@[simp] theorem setI_params (w : Word) : (s.setI w).params = s.params := rfl
@[simp] theorem setI_M (w : Word) : (s.setI w).M = s.M := rfl
@[simp] theorem setI_V (w : Word) : (s.setI w).V = s.V := rfl
@[simp] theorem setI_I (w : Word) : (s.setI w).I = w := rfl
@[simp] theorem setI_pc (w : Word) : (s.setI w).pc = s.pc := rfl
@[simp] theorem setI_S (w : Word) : (s.setI w).S = s.S := rfl
@[simp] theorem setI_DT (w : Word) : (s.setI w).DT = s.DT := rfl
@[simp] theorem setI_D (w : Word) : (s.setI w).D = s.D := rfl
@[simp] theorem setI_rng (w : Word) : (s.setI w).rng = s.rng := rfl
@[simp] theorem setI_timerRunning (w : Word) : (s.setI w).timerRunning = s.timerRunning := rfl
@[simp] theorem setI_fault (w : Word) : (s.setI w).fault = s.fault := rfl
@[simp] theorem setI_draws (w : Word) : (s.setI w).draws = s.draws := rfl
@[simp] theorem setI_tickIndex (w : Word) : (s.setI w).tickIndex = s.tickIndex := rfl
@[simp] theorem getV_setI (w : Word) (q : Nibble) : (s.setI w).getV q = s.getV q := rfl
@[simp] theorem readByte_setI (w : Word) (c : Nat) : (s.setI w).readByte c = s.readByte c := rfl
@[simp] theorem pixel_setI (w : Word) (px py : Nat) : (s.setI w).pixel px py = s.pixel px py := rfl

/-! ### setPc -/

@[simp] theorem setPc_params (w : Word) : (s.setPc w).params = s.params := rfl
@[simp] theorem setPc_M (w : Word) : (s.setPc w).M = s.M := rfl
@[simp] theorem setPc_V (w : Word) : (s.setPc w).V = s.V := rfl
@[simp] theorem setPc_I (w : Word) : (s.setPc w).I = s.I := rfl
@[simp] theorem setPc_pc (w : Word) : (s.setPc w).pc = w := rfl
@[simp] theorem setPc_S (w : Word) : (s.setPc w).S = s.S := rfl
@[simp] theorem setPc_DT (w : Word) : (s.setPc w).DT = s.DT := rfl
@[simp] theorem setPc_D (w : Word) : (s.setPc w).D = s.D := rfl
@[simp] theorem setPc_rng (w : Word) : (s.setPc w).rng = s.rng := rfl
@[simp] theorem setPc_timerRunning (w : Word) : (s.setPc w).timerRunning = s.timerRunning := rfl
@[simp] theorem setPc_fault (w : Word) : (s.setPc w).fault = s.fault := rfl
@[simp] theorem setPc_draws (w : Word) : (s.setPc w).draws = s.draws := rfl
@[simp] theorem setPc_tickIndex (w : Word) : (s.setPc w).tickIndex = s.tickIndex := rfl
@[simp] theorem getV_setPc (w : Word) (q : Nibble) : (s.setPc w).getV q = s.getV q := rfl
@[simp] theorem readByte_setPc (w : Word) (c : Nat) : (s.setPc w).readByte c = s.readByte c := rfl
@[simp] theorem pixel_setPc (w : Word) (px py : Nat) : (s.setPc w).pixel px py = s.pixel px py := rfl

/-! ### setDT -/

@[simp] theorem setDT_params (v : Byte) : (s.setDT v).params = s.params := rfl
@[simp] theorem setDT_M (v : Byte) : (s.setDT v).M = s.M := rfl
@[simp] theorem setDT_V (v : Byte) : (s.setDT v).V = s.V := rfl
@[simp] theorem setDT_I (v : Byte) : (s.setDT v).I = s.I := rfl
@[simp] theorem setDT_pc (v : Byte) : (s.setDT v).pc = s.pc := rfl
@[simp] theorem setDT_S (v : Byte) : (s.setDT v).S = s.S := rfl
@[simp] theorem setDT_DT (v : Byte) : (s.setDT v).DT = v := rfl
@[simp] theorem setDT_D (v : Byte) : (s.setDT v).D = s.D := rfl
@[simp] theorem setDT_rng (v : Byte) : (s.setDT v).rng = s.rng := rfl
@[simp] theorem setDT_timerRunning (v : Byte) : (s.setDT v).timerRunning = s.timerRunning := rfl
@[simp] theorem setDT_fault (v : Byte) : (s.setDT v).fault = s.fault := rfl
@[simp] theorem setDT_draws (v : Byte) : (s.setDT v).draws = s.draws := rfl
@[simp] theorem setDT_tickIndex (v : Byte) : (s.setDT v).tickIndex = s.tickIndex := rfl
@[simp] theorem getV_setDT (v : Byte) (q : Nibble) : (s.setDT v).getV q = s.getV q := rfl
@[simp] theorem readByte_setDT (v : Byte) (c : Nat) : (s.setDT v).readByte c = s.readByte c := rfl
@[simp] theorem pixel_setDT (v : Byte) (px py : Nat) : (s.setDT v).pixel px py = s.pixel px py := rfl

/-! ### advancePc -/

@[simp] theorem advancePc_params : s.advancePc.params = s.params := rfl
@[simp] theorem advancePc_M : s.advancePc.M = s.M := rfl
@[simp] theorem advancePc_V : s.advancePc.V = s.V := rfl
@[simp] theorem advancePc_I : s.advancePc.I = s.I := rfl
@[simp] theorem advancePc_pc : s.advancePc.pc = s.pc + 2 := rfl
@[simp] theorem advancePc_S : s.advancePc.S = s.S := rfl
@[simp] theorem advancePc_DT : s.advancePc.DT = s.DT := rfl
@[simp] theorem advancePc_D : s.advancePc.D = s.D := rfl
@[simp] theorem advancePc_rng : s.advancePc.rng = s.rng := rfl
@[simp] theorem advancePc_timerRunning : s.advancePc.timerRunning = s.timerRunning := rfl
@[simp] theorem advancePc_fault : s.advancePc.fault = s.fault := rfl
@[simp] theorem advancePc_draws : s.advancePc.draws = s.draws := rfl
@[simp] theorem advancePc_tickIndex : s.advancePc.tickIndex = s.tickIndex := rfl
@[simp] theorem getV_advancePc (q : Nibble) : s.advancePc.getV q = s.getV q := rfl
@[simp] theorem readByte_advancePc (c : Nat) : s.advancePc.readByte c = s.readByte c := rfl
@[simp] theorem pixel_advancePc (px py : Nat) : s.advancePc.pixel px py = s.pixel px py := rfl

/-! ### push -/

@[simp] theorem push_params (a : Word) : (s.push a).params = s.params := rfl
@[simp] theorem push_M (a : Word) : (s.push a).M = s.M := rfl
@[simp] theorem push_V (a : Word) : (s.push a).V = s.V := rfl
@[simp] theorem push_I (a : Word) : (s.push a).I = s.I := rfl
@[simp] theorem push_pc (a : Word) : (s.push a).pc = s.pc := rfl
@[simp] theorem push_S (a : Word) : (s.push a).S = s.S ++ [a] := rfl
@[simp] theorem push_DT (a : Word) : (s.push a).DT = s.DT := rfl
@[simp] theorem push_D (a : Word) : (s.push a).D = s.D := rfl
@[simp] theorem push_rng (a : Word) : (s.push a).rng = s.rng := rfl
@[simp] theorem push_timerRunning (a : Word) : (s.push a).timerRunning = s.timerRunning := rfl
@[simp] theorem push_fault (a : Word) : (s.push a).fault = s.fault := rfl
@[simp] theorem push_draws (a : Word) : (s.push a).draws = s.draws := rfl
@[simp] theorem push_tickIndex (a : Word) : (s.push a).tickIndex = s.tickIndex := rfl
@[simp] theorem getV_push (a : Word) (q : Nibble) : (s.push a).getV q = s.getV q := rfl
@[simp] theorem readByte_push (a : Word) (c : Nat) : (s.push a).readByte c = s.readByte c := rfl
@[simp] theorem pixel_push (a : Word) (px py : Nat) : (s.push a).pixel px py = s.pixel px py := rfl

/-! ### pop -/

@[simp] theorem pop_params : s.pop.params = s.params := rfl
@[simp] theorem pop_M : s.pop.M = s.M := rfl
@[simp] theorem pop_V : s.pop.V = s.V := rfl
@[simp] theorem pop_I : s.pop.I = s.I := rfl
@[simp] theorem pop_pc : s.pop.pc = s.pc := rfl
@[simp] theorem pop_S : s.pop.S = s.S.dropLast := rfl
@[simp] theorem pop_DT : s.pop.DT = s.DT := rfl
@[simp] theorem pop_D : s.pop.D = s.D := rfl
@[simp] theorem pop_rng : s.pop.rng = s.rng := rfl
@[simp] theorem pop_timerRunning : s.pop.timerRunning = s.timerRunning := rfl
@[simp] theorem pop_fault : s.pop.fault = s.fault := rfl
@[simp] theorem pop_draws : s.pop.draws = s.draws := rfl
@[simp] theorem pop_tickIndex : s.pop.tickIndex = s.tickIndex := rfl
@[simp] theorem getV_pop (q : Nibble) : s.pop.getV q = s.getV q := rfl
@[simp] theorem readByte_pop (c : Nat) : s.pop.readByte c = s.readByte c := rfl
@[simp] theorem pixel_pop (px py : Nat) : s.pop.pixel px py = s.pixel px py := rfl

/-! ### writeByte -/

@[simp] theorem writeByte_params (a : Nat) (v : Byte) : (s.writeByte a v).params = s.params := rfl
@[simp] theorem writeByte_M (a : Nat) (v : Byte) : (s.writeByte a v).M = Memory.write s.M a v := rfl
@[simp] theorem writeByte_V (a : Nat) (v : Byte) : (s.writeByte a v).V = s.V := rfl
@[simp] theorem writeByte_I (a : Nat) (v : Byte) : (s.writeByte a v).I = s.I := rfl
@[simp] theorem writeByte_pc (a : Nat) (v : Byte) : (s.writeByte a v).pc = s.pc := rfl
@[simp] theorem writeByte_S (a : Nat) (v : Byte) : (s.writeByte a v).S = s.S := rfl
@[simp] theorem writeByte_DT (a : Nat) (v : Byte) : (s.writeByte a v).DT = s.DT := rfl
@[simp] theorem writeByte_D (a : Nat) (v : Byte) : (s.writeByte a v).D = s.D := rfl
@[simp] theorem writeByte_rng (a : Nat) (v : Byte) : (s.writeByte a v).rng = s.rng := rfl
@[simp] theorem writeByte_timerRunning (a : Nat) (v : Byte) : (s.writeByte a v).timerRunning = s.timerRunning := rfl
@[simp] theorem writeByte_fault (a : Nat) (v : Byte) : (s.writeByte a v).fault = s.fault := rfl
@[simp] theorem writeByte_draws (a : Nat) (v : Byte) : (s.writeByte a v).draws = s.draws := rfl
@[simp] theorem writeByte_tickIndex (a : Nat) (v : Byte) : (s.writeByte a v).tickIndex = s.tickIndex := rfl
@[simp] theorem getV_writeByte (a : Nat) (v : Byte) (q : Nibble) : (s.writeByte a v).getV q = s.getV q := rfl
@[simp] theorem pixel_writeByte (a : Nat) (v : Byte) (px py : Nat) : (s.writeByte a v).pixel px py = s.pixel px py := rfl

/-! ### setPixel -/

@[simp] theorem setPixel_params (x y : Nat) (b : Bool) : (s.setPixel x y b).params = s.params := rfl
@[simp] theorem setPixel_M (x y : Nat) (b : Bool) : (s.setPixel x y b).M = s.M := rfl
@[simp] theorem setPixel_V (x y : Nat) (b : Bool) : (s.setPixel x y b).V = s.V := rfl
@[simp] theorem setPixel_I (x y : Nat) (b : Bool) : (s.setPixel x y b).I = s.I := rfl
@[simp] theorem setPixel_pc (x y : Nat) (b : Bool) : (s.setPixel x y b).pc = s.pc := rfl
@[simp] theorem setPixel_S (x y : Nat) (b : Bool) : (s.setPixel x y b).S = s.S := rfl
@[simp] theorem setPixel_DT (x y : Nat) (b : Bool) : (s.setPixel x y b).DT = s.DT := rfl
@[simp] theorem setPixel_D (x y : Nat) (b : Bool) : (s.setPixel x y b).D = s.D.modify y fun row => row.set x b := rfl
@[simp] theorem setPixel_rng (x y : Nat) (b : Bool) : (s.setPixel x y b).rng = s.rng := rfl
@[simp] theorem setPixel_timerRunning (x y : Nat) (b : Bool) : (s.setPixel x y b).timerRunning = s.timerRunning := rfl
@[simp] theorem setPixel_fault (x y : Nat) (b : Bool) : (s.setPixel x y b).fault = s.fault := rfl
@[simp] theorem setPixel_draws (x y : Nat) (b : Bool) : (s.setPixel x y b).draws = s.draws := rfl
@[simp] theorem setPixel_tickIndex (x y : Nat) (b : Bool) : (s.setPixel x y b).tickIndex = s.tickIndex := rfl
@[simp] theorem getV_setPixel (x y : Nat) (b : Bool) (q : Nibble) : (s.setPixel x y b).getV q = s.getV q := rfl
@[simp] theorem readByte_setPixel (x y : Nat) (b : Bool) (c : Nat) : (s.setPixel x y b).readByte c = s.readByte c := rfl

/-! ### clearDisplay -/

@[simp] theorem clearDisplay_params : s.clearDisplay.params = s.params := rfl
@[simp] theorem clearDisplay_M : s.clearDisplay.M = s.M := rfl
@[simp] theorem clearDisplay_V : s.clearDisplay.V = s.V := rfl
@[simp] theorem clearDisplay_I : s.clearDisplay.I = s.I := rfl
@[simp] theorem clearDisplay_pc : s.clearDisplay.pc = s.pc := rfl
@[simp] theorem clearDisplay_S : s.clearDisplay.S = s.S := rfl
@[simp] theorem clearDisplay_DT : s.clearDisplay.DT = s.DT := rfl
@[simp] theorem clearDisplay_D : s.clearDisplay.D = s.D.map fun row => row.map fun _ => false := rfl
@[simp] theorem clearDisplay_rng : s.clearDisplay.rng = s.rng := rfl
@[simp] theorem clearDisplay_timerRunning : s.clearDisplay.timerRunning = s.timerRunning := rfl
@[simp] theorem clearDisplay_fault : s.clearDisplay.fault = s.fault := rfl
@[simp] theorem clearDisplay_draws : s.clearDisplay.draws = s.draws := rfl
@[simp] theorem clearDisplay_tickIndex : s.clearDisplay.tickIndex = s.tickIndex := rfl
@[simp] theorem getV_clearDisplay (q : Nibble) : s.clearDisplay.getV q = s.getV q := rfl
@[simp] theorem readByte_clearDisplay (c : Nat) : s.clearDisplay.readByte c = s.readByte c := rfl

/-! ### recordFault -/

@[simp] theorem recordFault_params (r : FaultRecord) : (s.recordFault r).params = s.params := rfl
@[simp] theorem recordFault_M (r : FaultRecord) : (s.recordFault r).M = s.M := rfl
@[simp] theorem recordFault_V (r : FaultRecord) : (s.recordFault r).V = s.V := rfl
@[simp] theorem recordFault_I (r : FaultRecord) : (s.recordFault r).I = s.I := rfl
@[simp] theorem recordFault_pc (r : FaultRecord) : (s.recordFault r).pc = s.pc := rfl
@[simp] theorem recordFault_S (r : FaultRecord) : (s.recordFault r).S = s.S := rfl
@[simp] theorem recordFault_DT (r : FaultRecord) : (s.recordFault r).DT = s.DT := rfl
@[simp] theorem recordFault_D (r : FaultRecord) : (s.recordFault r).D = s.D := rfl
@[simp] theorem recordFault_rng (r : FaultRecord) : (s.recordFault r).rng = s.rng := rfl
@[simp] theorem recordFault_timerRunning (r : FaultRecord) : (s.recordFault r).timerRunning = s.timerRunning := rfl
@[simp] theorem recordFault_fault (r : FaultRecord) : (s.recordFault r).fault = some r := rfl
@[simp] theorem recordFault_draws (r : FaultRecord) : (s.recordFault r).draws = s.draws := rfl
@[simp] theorem recordFault_tickIndex (r : FaultRecord) : (s.recordFault r).tickIndex = s.tickIndex := rfl
@[simp] theorem getV_recordFault (r : FaultRecord) (q : Nibble) : (s.recordFault r).getV q = s.getV q := rfl
@[simp] theorem readByte_recordFault (r : FaultRecord) (c : Nat) : (s.recordFault r).readByte c = s.readByte c := rfl
@[simp] theorem pixel_recordFault (r : FaultRecord) (px py : Nat) : (s.recordFault r).pixel px py = s.pixel px py := rfl

/-! ### afterRandomByte -/

@[simp] theorem afterRandomByte_params : s.afterRandomByte.params = s.params := rfl
@[simp] theorem afterRandomByte_M : s.afterRandomByte.M = s.M := rfl
@[simp] theorem afterRandomByte_V : s.afterRandomByte.V = s.V := rfl
@[simp] theorem afterRandomByte_I : s.afterRandomByte.I = s.I := rfl
@[simp] theorem afterRandomByte_pc : s.afterRandomByte.pc = s.pc := rfl
@[simp] theorem afterRandomByte_S : s.afterRandomByte.S = s.S := rfl
@[simp] theorem afterRandomByte_DT : s.afterRandomByte.DT = s.DT := rfl
@[simp] theorem afterRandomByte_D : s.afterRandomByte.D = s.D := rfl
@[simp] theorem afterRandomByte_rng : s.afterRandomByte.rng = (generatorStep s.generator s.rng).2 := rfl
@[simp] theorem generator_afterRandomByte : s.afterRandomByte.generator = s.generator := rfl
@[simp] theorem afterRandomByte_timerRunning : s.afterRandomByte.timerRunning = s.timerRunning := rfl
@[simp] theorem afterRandomByte_fault : s.afterRandomByte.fault = s.fault := rfl
@[simp] theorem afterRandomByte_draws : s.afterRandomByte.draws = s.draws + 1 := rfl
@[simp] theorem afterRandomByte_tickIndex : s.afterRandomByte.tickIndex = s.tickIndex := rfl
@[simp] theorem getV_afterRandomByte (q : Nibble) : s.afterRandomByte.getV q = s.getV q := rfl
@[simp] theorem readByte_afterRandomByte (c : Nat) : s.afterRandomByte.readByte c = s.readByte c := rfl
@[simp] theorem pixel_afterRandomByte (px py : Nat) : s.afterRandomByte.pixel px py = s.pixel px py := rfl

/-! ### reseed -/

@[simp] theorem reseed_params (n : Nat) : (s.reseed n).params = s.params := rfl
@[simp] theorem reseed_M (n : Nat) : (s.reseed n).M = s.M := rfl
@[simp] theorem reseed_V (n : Nat) : (s.reseed n).V = s.V := rfl
@[simp] theorem reseed_I (n : Nat) : (s.reseed n).I = s.I := rfl
@[simp] theorem reseed_pc (n : Nat) : (s.reseed n).pc = s.pc := rfl
@[simp] theorem reseed_S (n : Nat) : (s.reseed n).S = s.S := rfl
@[simp] theorem reseed_DT (n : Nat) : (s.reseed n).DT = s.DT := rfl
@[simp] theorem reseed_D (n : Nat) : (s.reseed n).D = s.D := rfl
@[simp] theorem reseed_timerRunning (n : Nat) : (s.reseed n).timerRunning = s.timerRunning := rfl
@[simp] theorem reseed_fault (n : Nat) : (s.reseed n).fault = s.fault := rfl
@[simp] theorem reseed_draws (n : Nat) : (s.reseed n).draws = s.draws := rfl
@[simp] theorem reseed_tickIndex (n : Nat) : (s.reseed n).tickIndex = s.tickIndex := rfl
@[simp] theorem reseed_rng (n : Nat) : (s.reseed n).rng = generatorSeed s.generator n := rfl
@[simp] theorem getV_reseed (n : Nat) (q : Nibble) : (s.reseed n).getV q = s.getV q := rfl
@[simp] theorem readByte_reseed (n : Nat) (c : Nat) : (s.reseed n).readByte c = s.readByte c := rfl
@[simp] theorem pixel_reseed (n : Nat) (px py : Nat) : (s.reseed n).pixel px py = s.pixel px py := rfl
@[simp] theorem generator_reseed (n : Nat) : (s.reseed n).generator = s.generator := rfl

theorem getV_setV_same (r : Nibble) (v : Byte) : (s.setV r v).getV r = v := by simp

theorem getV_setV_other {r q : Nibble} (v : Byte) (h : q ≠ r) : (s.setV r v).getV q = s.getV q := by
  simp [h]

/-- Two states of equal register files have equal registers, and conversely. -/
theorem V_ext_iff {s t : State} : t.V = s.V ↔ ∀ r, t.getV r = s.getV r := by
  constructor
  · intro h r
    simp [getV, h]
  · intro h
    apply Vector.ext
    intro k hk
    have := h (BitVec.ofNat 4 k)
    simpa [getV, Nat.mod_eq_of_lt hk] using this

end Sys2Proof.Machine.State

namespace Sys2Proof.Machine

/-- The bounds legal parameters meet (00_scope.md R6). -/
theorem Params.bounds_of_wf {p : Params} (h : p.wf = true) :
    p.romStart < p.memSize ∧ p.memSize ≤ 65536 ∧ 1 ≤ p.width ∧ 1 ≤ p.height := by
  simp only [Params.wf, Bool.and_eq_true, decide_eq_true_eq] at h
  exact ⟨h.1.1.1.1, h.1.1.1.2, h.1.1.2, h.1.2⟩

/-- Legality depends on the parameters, memory, the display and the stack only. -/
theorem State.Inv.congr {s t : State} (h : s.Inv) (hp : t.params = s.params) (hM : t.M = s.M)
    (hD : t.D = s.D) (hS : t.S = s.S) : t.Inv where
  params := hp ▸ h.params
  memCanonical := hM ▸ h.memCanonical
  memInside := by
    rw [hM, hp]
    exact h.memInside
  rows := by
    rw [hD, hp]
    exact h.rows
  columns := by
    rw [hD, hp]
    exact h.columns
  stack := by
    rw [hS, hp]
    exact h.stack

end Sys2Proof.Machine
end

