-- ==== Sys2Proof/Laws/Memory.lean ====
section
/-! SUPPORT. The sparse memory: read after write, the canonical form and its preservation, and the
multi-byte store. -/

namespace Sys2Proof.Machine

/-! ### The list -/

@[simp] theorem Memory.read_nil (a : Nat) : Memory.read [] a = 0 := rfl

theorem Memory.read_cons (c : Nat) (b : Byte) (m : Memory) (a : Nat) :
    Memory.read ((c, b) :: m) a = if a = c then b else Memory.read m a := rfl

/-- An address below every listed one reads as an unlisted byte. -/
theorem Memory.read_eq_zero_of_lt {lo : Nat} {m : Memory} (h : Memory.wfFrom lo m = true) {a : Nat}
    (ha : a < lo) : Memory.read m a = 0 := by
  induction m generalizing lo with
  | nil => rfl
  | cons cell m ih =>
    obtain ⟨c, b⟩ := cell
    simp only [Memory.wfFrom, Bool.and_eq_true, decide_eq_true_eq] at h
    rw [Memory.read_cons, if_neg (by omega), ih h.2 (by omega)]

theorem Memory.wfFrom_mono {lo lo' : Nat} {m : Memory} (h : Memory.wfFrom lo m = true)
    (hl : lo' ≤ lo) : Memory.wfFrom lo' m = true := by
  cases m with
  | nil => rfl
  | cons cell m =>
    obtain ⟨c, b⟩ := cell
    simp only [Memory.wfFrom, Bool.and_eq_true, decide_eq_true_eq] at h ⊢
    exact ⟨⟨by omega, h.1.2⟩, h.2⟩

theorem Memory.wfFrom_put {lo a : Nat} {m : Memory} (b : Byte)
    (h : Memory.wfFrom (a + 1) m = true) (ha : lo ≤ a) :
    Memory.wfFrom lo (Memory.cons a b m) = true := by
  unfold Memory.cons
  split
  · exact Memory.wfFrom_mono h (by omega)
  · rename_i hb
    simp [Memory.wfFrom, ha, hb, h]

/-- A write keeps the canonical form from any lower bound at or below its address. -/
theorem Memory.wfFrom_write {lo : Nat} {m : Memory} (h : Memory.wfFrom lo m = true) {a : Nat}
    (b : Byte) (ha : lo ≤ a) : Memory.wfFrom lo (Memory.write m a b) = true := by
  induction m generalizing lo with
  | nil => exact Memory.wfFrom_put b rfl ha
  | cons cell m ih =>
    obtain ⟨c, d⟩ := cell
    simp only [Memory.wfFrom, Bool.and_eq_true, decide_eq_true_eq] at h
    obtain ⟨⟨hc, hd⟩, hm⟩ := h
    unfold Memory.write
    split
    · refine Memory.wfFrom_put b ?_ ha
      simp only [Memory.wfFrom, Bool.and_eq_true, decide_eq_true_eq]
      exact ⟨⟨by omega, hd⟩, hm⟩
    · split
      · subst_vars
        exact Memory.wfFrom_put b hm ha
      · simp only [Memory.wfFrom, Bool.and_eq_true, decide_eq_true_eq]
        exact ⟨⟨hc, hd⟩, ih hm (by omega)⟩

/-- A write keeps the canonical form. -/
theorem Memory.wf_write {m : Memory} (h : Memory.wf m = true) (a : Nat) (b : Byte) :
    Memory.wf (Memory.write m a b) = true :=
  Memory.wfFrom_write h b (Nat.zero_le a)

/-- A write leaves every other address alone. -/
theorem Memory.read_write_other {m : Memory} {a c : Nat} (b : Byte) (h : c ≠ a) :
    Memory.read (Memory.write m a b) c = Memory.read m c := by
  have hput : ∀ m' : Memory, Memory.read (Memory.cons a b m') c = Memory.read m' c := by
    intro m'
    unfold Memory.cons
    split
    · rfl
    · simp [Memory.read_cons, h]
  induction m with
  | nil => exact hput []
  | cons cell m ih =>
    obtain ⟨e, d⟩ := cell
    unfold Memory.write
    split
    · rw [hput]
    · split
      · subst_vars
        rw [hput, Memory.read_cons, if_neg h]
      · rw [Memory.read_cons, Memory.read_cons, ih]

theorem Memory.read_put_same {m : Memory} {a : Nat} (b : Byte)
    (h : Memory.wfFrom (a + 1) m = true) : Memory.read (Memory.cons a b m) a = b := by
  unfold Memory.cons
  split
  · rename_i hb
    rw [Memory.read_eq_zero_of_lt h (by omega), hb]
    rfl
  · simp [Memory.read_cons]

theorem Memory.read_write_same_from {lo : Nat} {m : Memory} (h : Memory.wfFrom lo m = true)
    (a : Nat) (b : Byte) : Memory.read (Memory.write m a b) a = b := by
  induction m generalizing lo with
  | nil => exact Memory.read_put_same b rfl
  | cons cell m ih =>
    obtain ⟨c, d⟩ := cell
    simp only [Memory.wfFrom, Bool.and_eq_true, decide_eq_true_eq] at h
    obtain ⟨⟨hc, hd⟩, hm⟩ := h
    unfold Memory.write
    split
    · refine Memory.read_put_same b ?_
      simp only [Memory.wfFrom, Bool.and_eq_true, decide_eq_true_eq]
      exact ⟨⟨by omega, hd⟩, hm⟩
    · split
      · subst_vars
        exact Memory.read_put_same b hm
      · rename_i hac
        rw [Memory.read_cons, if_neg hac, ih hm]

/-- A read after a write to the same address gives the byte written. -/
theorem Memory.read_write_same {m : Memory} (h : Memory.wf m = true) (a : Nat) (b : Byte) :
    Memory.read (Memory.write m a b) a = b :=
  Memory.read_write_same_from h a b

theorem Memory.read_write {m : Memory} (h : Memory.wf m = true) (a c : Nat) (b : Byte) :
    Memory.read (Memory.write m a b) c = if c = a then b else Memory.read m c := by
  split
  · subst_vars
    exact Memory.read_write_same h _ b
  · exact Memory.read_write_other b ‹_›

/-- A write inside the address space lists no address outside it. -/
theorem Memory.within_write {m : Memory} {size a : Nat} (h : Memory.within m size = true)
    (b : Byte) (ha : a < size) : Memory.within (Memory.write m a b) size = true := by
  have hput : ∀ m' : Memory, Memory.within m' size = true →
      Memory.within (Memory.cons a b m') size = true := by
    intro m' hm'
    unfold Memory.cons
    split
    · exact hm'
    · simpa [Memory.within, ha] using hm'
  induction m with
  | nil => exact hput [] rfl
  | cons cell m ih =>
    obtain ⟨c, d⟩ := cell
    have hsplit := h
    simp only [Memory.within, List.all_cons, Bool.and_eq_true] at hsplit
    unfold Memory.write
    split
    · exact hput _ h
    · split
      · exact hput _ hsplit.2
      · simp only [Memory.within, List.all_cons, Bool.and_eq_true]
        exact ⟨hsplit.1, ih hsplit.2⟩

theorem Memory.ext_from {lo : Nat} {m m' : Memory} (h : Memory.wfFrom lo m = true)
    (h' : Memory.wfFrom lo m' = true) (hread : ∀ a, Memory.read m a = Memory.read m' a) :
    m = m' := by
  induction m generalizing lo m' with
  | nil =>
    cases m' with
    | nil => rfl
    | cons cell m' =>
      obtain ⟨c, d⟩ := cell
      simp only [Memory.wfFrom, Bool.and_eq_true, decide_eq_true_eq] at h'
      have := hread c
      simp [Memory.read_cons] at this
      exact absurd this.symm h'.1.2
  | cons cell m ih =>
    obtain ⟨c, d⟩ := cell
    cases m' with
    | nil =>
      simp only [Memory.wfFrom, Bool.and_eq_true, decide_eq_true_eq] at h
      have := hread c
      simp [Memory.read_cons] at this
      exact absurd this h.1.2
    | cons cell' m' =>
      obtain ⟨c', d'⟩ := cell'
      simp only [Memory.wfFrom, Bool.and_eq_true, decide_eq_true_eq] at h h'
      obtain ⟨⟨_, hd⟩, hm⟩ := h
      obtain ⟨⟨_, hd'⟩, hm'⟩ := h'
      have hc : c = c' := by
        rcases Nat.lt_trichotomy c c' with hlt | heq | hgt
        · have := hread c
          rw [Memory.read_cons, if_pos rfl, Memory.read_cons, if_neg (by omega),
            Memory.read_eq_zero_of_lt hm' (by omega)] at this
          exact absurd this hd
        · exact heq
        · have := hread c'
          rw [Memory.read_cons, if_neg (by omega), Memory.read_cons, if_pos rfl,
            Memory.read_eq_zero_of_lt hm (by omega)] at this
          exact absurd this.symm hd'
      subst hc
      have hdd : d = d' := by simpa [Memory.read_cons] using hread c
      subst hdd
      congr 1
      refine ih hm hm' fun a => ?_
      by_cases ha : a = c
      · subst ha
        rw [Memory.read_eq_zero_of_lt hm (by omega), Memory.read_eq_zero_of_lt hm' (by omega)]
      · simpa [Memory.read_cons, ha] using hread a

/-- Equal memories are equal data: two canonical memories that read the same are the same list. -/
theorem Memory.ext_of_read {m m' : Memory} (h : Memory.wf m = true) (h' : Memory.wf m' = true)
    (hread : ∀ a, Memory.read m a = Memory.read m' a) : m = m' :=
  Memory.ext_from h h' hread

/-! ### The state's bytes -/

theorem State.readByte_writeByte {s : State} (h : Memory.wf s.M = true) (a c : Nat) (v : Byte) :
    (s.writeByte a v).readByte c = if c = a then v else s.readByte c :=
  Memory.read_write h a c v

theorem State.readByte_writeByte_other (s : State) {a c : Nat} (v : Byte) (h : c ≠ a) :
    (s.writeByte a v).readByte c = s.readByte c :=
  Memory.read_write_other v h

/-- A multi-byte store changes nothing but memory. -/
theorem storeBytes_eq (a : Nat) (bs : List Byte) (s : State) :
    storeBytes a bs s = { s with M := (storeBytes a bs s).M } := by
  induction bs generalizing a s with
  | nil => rfl
  | cons b bs ih =>
    rw [storeBytes, ih]
    rfl

@[simp] theorem storeBytes_nil (a : Nat) (s : State) : storeBytes a [] s = s := rfl

@[simp] theorem storeBytes_params (a : Nat) (bs : List Byte) (s : State) :
    (storeBytes a bs s).params = s.params := by rw [storeBytes_eq]
@[simp] theorem storeBytes_V (a : Nat) (bs : List Byte) (s : State) :
    (storeBytes a bs s).V = s.V := by rw [storeBytes_eq]
@[simp] theorem storeBytes_I (a : Nat) (bs : List Byte) (s : State) :
    (storeBytes a bs s).I = s.I := by rw [storeBytes_eq]
@[simp] theorem storeBytes_pc (a : Nat) (bs : List Byte) (s : State) :
    (storeBytes a bs s).pc = s.pc := by rw [storeBytes_eq]
@[simp] theorem storeBytes_S (a : Nat) (bs : List Byte) (s : State) :
    (storeBytes a bs s).S = s.S := by rw [storeBytes_eq]
@[simp] theorem storeBytes_DT (a : Nat) (bs : List Byte) (s : State) :
    (storeBytes a bs s).DT = s.DT := by rw [storeBytes_eq]
@[simp] theorem storeBytes_D (a : Nat) (bs : List Byte) (s : State) :
    (storeBytes a bs s).D = s.D := by rw [storeBytes_eq]
@[simp] theorem storeBytes_rng (a : Nat) (bs : List Byte) (s : State) :
    (storeBytes a bs s).rng = s.rng := by rw [storeBytes_eq]
@[simp] theorem storeBytes_timerRunning (a : Nat) (bs : List Byte) (s : State) :
    (storeBytes a bs s).timerRunning = s.timerRunning := by rw [storeBytes_eq]
@[simp] theorem storeBytes_fault (a : Nat) (bs : List Byte) (s : State) :
    (storeBytes a bs s).fault = s.fault := by rw [storeBytes_eq]
@[simp] theorem storeBytes_draws (a : Nat) (bs : List Byte) (s : State) :
    (storeBytes a bs s).draws = s.draws := by rw [storeBytes_eq]
@[simp] theorem storeBytes_tickIndex (a : Nat) (bs : List Byte) (s : State) :
    (storeBytes a bs s).tickIndex = s.tickIndex := by rw [storeBytes_eq]
@[simp] theorem getV_storeBytes (a : Nat) (bs : List Byte) (s : State) (r : Nibble) :
    (storeBytes a bs s).getV r = s.getV r := by rw [storeBytes_eq]; rfl
@[simp] theorem pixel_storeBytes (a : Nat) (bs : List Byte) (s : State) (x y : Nat) :
    (storeBytes a bs s).pixel x y = s.pixel x y := by rw [storeBytes_eq]; rfl

/-- A multi-byte store keeps the canonical form. -/
theorem wf_storeBytes {s : State} (h : Memory.wf s.M = true) (a : Nat) (bs : List Byte) :
    Memory.wf (storeBytes a bs s).M = true := by
  induction bs generalizing a s with
  | nil => exact h
  | cons b bs ih => exact ih (s := s.writeByte a b) (Memory.wf_write h a b) (a + 1)

/-- A multi-byte store inside the address space keeps memory inside it. -/
theorem within_storeBytes {s : State} {size a : Nat} {bs : List Byte}
    (h : Memory.within s.M size = true) (ha : a + bs.length ≤ size) :
    Memory.within (storeBytes a bs s).M size = true := by
  induction bs generalizing a s with
  | nil => exact h
  | cons b bs ih =>
    rw [List.length_cons] at ha
    exact ih (s := s.writeByte a b) (Memory.within_write h b (by omega)) (by omega)

/-- Outside the stored bytes every address reads as before. -/
theorem readByte_storeBytes_other {s : State} {a c : Nat} {bs : List Byte}
    (h : c < a ∨ a + bs.length ≤ c) : (storeBytes a bs s).readByte c = s.readByte c := by
  induction bs generalizing a s with
  | nil => rfl
  | cons b bs ih =>
    rw [List.length_cons] at h
    rw [storeBytes, ih (by omega), State.readByte_writeByte_other _ _ (by omega)]

/-- The k-th stored byte reads as the k-th byte of the list. -/
theorem readByte_storeBytes {s : State} (hw : Memory.wf s.M = true) (a : Nat) (bs : List Byte)
    {k : Nat} (hk : k < bs.length) : (storeBytes a bs s).readByte (a + k) = bs[k] := by
  induction bs generalizing a s k with
  | nil => exact absurd hk (Nat.not_lt_zero k)
  | cons b bs ih =>
    rw [storeBytes]
    cases k with
    | zero =>
      rw [readByte_storeBytes_other (by omega), Nat.add_zero, State.readByte_writeByte hw, if_pos rfl]
      rfl
    | succ k =>
      rw [show a + (k + 1) = a + 1 + k by omega]
      exact ih (s := s.writeByte a b) (Memory.wf_write hw a b) (a + 1)
        (Nat.lt_of_succ_lt_succ hk)

end Sys2Proof.Machine
end

