-- ==== Sys2Proof/Laws/Loops.lean ====
section
/-! SUPPORT. The counted loop the meanings are written with: a fold over 0 .. n-1. -/

namespace Sys2Proof.Machine

theorem foldl_range_zero {α : Type} (g : α → Nat → α) (a : α) : (List.range 0).foldl g a = a := rfl

theorem foldl_range_succ {α : Type} (g : α → Nat → α) (n : Nat) (a : α) :
    (List.range (n + 1)).foldl g a = g ((List.range n).foldl g a) n := by
  rw [List.range_succ, List.foldl_append]
  rfl

/-- What every round of a loop leaves unchanged, the loop leaves unchanged. -/
theorem foldl_range_frame {α β : Type} (f : α → β) (g : α → Nat → α)
    (h : ∀ a k, f (g a k) = f a) (n : Nat) (a : α) : f ((List.range n).foldl g a) = f a := by
  induction n with
  | zero => rfl
  | succ n ih => rw [foldl_range_succ, h, ih]

/-- What every round of a loop keeps true, the loop keeps true. -/
theorem foldl_range_invariant {α : Type} (P : α → Prop) (g : α → Nat → α)
    (h : ∀ a k, P a → P (g a k)) (n : Nat) {a : α} (ha : P a) : P ((List.range n).foldl g a) := by
  induction n with
  | zero => exact ha
  | succ n ih =>
    rw [foldl_range_succ]
    exact h _ _ ih

/-- Two loops whose rounds keep two states related keep them related. -/
theorem foldl_range_relation {α β : Type} (R : α → β → Prop) (g : α → Nat → α) (g' : β → Nat → β)
    (h : ∀ a b k, R a b → R (g a k) (g' b k)) (n : Nat) {a : α} {b : β} (hab : R a b) :
    R ((List.range n).foldl g a) ((List.range n).foldl g' b) := by
  induction n with
  | zero => exact hab
  | succ n ih =>
    rw [foldl_range_succ, foldl_range_succ]
    exact h _ _ _ ih

end Sys2Proof.Machine
end

