-- ==== Sys2Proof/Laws/Display.lean ====
section
/-! SUPPORT. The display: a pixel read after a write, the grid's dimensions, and what the draw's
operations change. -/

namespace Sys2Proof.Machine

/-- The display is H rows of W pixels (10_state.md R31), as a statement about one state. -/
def GridShape (s : State) : Prop :=
  s.D.length = s.params.height ∧ ∀ row ∈ s.D, row.length = s.params.width

theorem State.Inv.gridShape {s : State} (h : s.Inv) : GridShape s := ⟨h.rows, h.columns⟩

theorem gridShape_setPixel {s : State} (h : GridShape s) (x y : Nat) (b : Bool) :
    GridShape (s.setPixel x y b) := by
  refine ⟨by simpa using h.1, fun row hrow => ?_⟩
  obtain ⟨k, hk⟩ := List.getElem?_of_mem hrow
  simp only [State.setPixel_D, List.getElem?_modify, Option.map_eq_map, Option.map_eq_some_iff] at hk
  obtain ⟨old, hold, hrow'⟩ := hk
  have hlen := h.2 old (List.mem_of_getElem? hold)
  split at hrow'
  · rw [← hrow', List.length_set]
    exact hlen
  · rw [← hrow']
    exact hlen

theorem gridShape_clearDisplay {s : State} (h : GridShape s) : GridShape s.clearDisplay := by
  refine ⟨by simpa using h.1, fun row hrow => ?_⟩
  simp only [State.clearDisplay_D, List.mem_map] at hrow
  obtain ⟨old, hold, rfl⟩ := hrow
  simpa using h.2 old hold

theorem getD_set_bool (l : List Bool) (x x' : Nat) (b : Bool) :
    (l.set x b).getD x' false = if x' = x ∧ x < l.length then b else l.getD x' false := by
  simp only [List.getD_eq_getElem?_getD, List.getElem?_set]
  by_cases h : x = x'
  · subst h
    by_cases hl : x < l.length
    · simp [hl]
    · simp [hl]
  · simp [h, Ne.symm h]

/-- A pixel read after a write inside the grid: what was written there, as before elsewhere. -/
theorem pixel_setPixel {s : State} (h : GridShape s) {x y : Nat} (hx : x < s.params.width)
    (hy : y < s.params.height) (b : Bool) (px py : Nat) :
    (s.setPixel x y b).pixel px py = if px = x ∧ py = y then b else s.pixel px py := by
  have hy' : y < s.D.length := by rw [h.1]; exact hy
  simp only [State.pixel, State.setPixel_D, List.getD_eq_getElem?_getD (α := List Bool),
    List.getElem?_modify]
  by_cases hyy : y = py
  · subst hyy
    have hlen : (s.D[y]'hy').length = s.params.width := h.2 _ (List.getElem_mem hy')
    rw [List.getElem?_eq_getElem hy']
    simp only [if_true, Option.map_eq_map, Option.map_some, Option.getD_some, getD_set_bool, hlen,
      hx, and_true]
  · simp [hyy, Ne.symm hyy]

/-- A pixel outside the grid reads as off. -/
theorem pixel_outside {s : State} (h : GridShape s) {x y : Nat}
    (hxy : s.params.width ≤ x ∨ s.params.height ≤ y) : s.pixel x y = false := by
  unfold State.pixel
  rw [List.getD_eq_getElem?_getD (α := List Bool)]
  by_cases hy : y < s.D.length
  · rw [List.getElem?_eq_getElem hy, Option.getD_some, List.getD_eq_default]
    rw [h.2 _ (List.getElem_mem hy)]
    rcases hxy with hx | hy'
    · exact hx
    · rw [h.1] at hy
      omega
  · rw [List.getElem?_eq_none (by omega)]
    rfl

/-- After a clear every pixel is off (41_display.md R91). -/
@[simp] theorem pixel_clearDisplay (s : State) (x y : Nat) : s.clearDisplay.pixel x y = false := by
  simp only [State.pixel, State.clearDisplay_D, List.getD_eq_getElem?_getD, List.getElem?_map]
  cases s.D[y]? with
  | none => rfl
  | some row =>
    simp only [Option.map_some, Option.getD_some, List.getElem?_map]
    cases row[x]? <;> rfl

/-! ### The collision flag -/

theorem noteCollision_eq (c : Bool) (s : State) :
    noteCollision c s = { s with V := (noteCollision c s).V } := by
  cases c <;> rfl

@[simp] theorem readByte_noteCollision (c : Bool) (s : State) (a : Nat) :
    (noteCollision c s).readByte a = s.readByte a := by cases c <;> rfl

@[simp] theorem pixel_noteCollision (c : Bool) (s : State) (x y : Nat) :
    (noteCollision c s).pixel x y = s.pixel x y := by cases c <;> rfl

/-- A collision sets VF to 1 and leaves every other register; without one nothing changes (R92). -/
theorem getV_noteCollision (c : Bool) (s : State) (r : Nibble) :
    (noteCollision c s).getV r = if c = true ∧ r = flagRegister then 1 else s.getV r := by
  cases c <;> simp [noteCollision]

/-! ### The draw's frame -/

/-- One pixel of a draw changes only the display and the registers. -/
theorem drawPixel_eq (x y : Nat) (bit : Bool) (s : State) :
    drawPixel x y bit s =
      { s with V := (drawPixel x y bit s).V, D := (drawPixel x y bit s).D } := by
  unfold drawPixel
  rw [noteCollision_eq]
  rfl

/-- One row of a draw changes only the display and the registers. -/
theorem drawRow_eq (x0 y : Nat) (b : Byte) (s : State) :
    drawRow x0 y b s = { s with V := (drawRow x0 y b s).V, D := (drawRow x0 y b s).D } := by
  have key := foldl_range_frame (fun t : State => { t with V := s.V, D := s.D })
    (fun t col => drawPixel (x0 + col) y (spriteBit b col) t)
    (fun t k => by
      change ({ drawPixel (x0 + k) y (spriteBit b k) t with V := s.V, D := s.D } : State) = _
      rw [drawPixel_eq])
    (visibleColumns s.params.width x0) s
  have h2 : ({ drawRow x0 y b s with V := s.V, D := s.D } : State) = s := key
  calc drawRow x0 y b s
      = { ({ drawRow x0 y b s with V := s.V, D := s.D } : State) with
          V := (drawRow x0 y b s).V, D := (drawRow x0 y b s).D } := rfl
    _ = _ := by rw [h2]

/-- A whole draw changes only the display and the registers (R90, R95 item 10). -/
theorem drawRows_eq (x0 y0 rows : Nat) (s : State) :
    drawRows x0 y0 rows s =
      { s with V := (drawRows x0 y0 rows s).V, D := (drawRows x0 y0 rows s).D } := by
  have key := foldl_range_frame (fun t : State => { t with V := s.V, D := s.D })
    (fun t row => drawRow x0 (y0 + row) (t.readByte (effectiveAddress t.I row)) t)
    (fun t k => by
      change ({ drawRow x0 (y0 + k) (t.readByte (effectiveAddress t.I k)) t
        with V := s.V, D := s.D } : State) = _
      rw [drawRow_eq])
    rows s
  have h2 : ({ drawRows x0 y0 rows s with V := s.V, D := s.D } : State) = s := key
  calc drawRows x0 y0 rows s
      = { ({ drawRows x0 y0 rows s with V := s.V, D := s.D } : State) with
          V := (drawRows x0 y0 rows s).V, D := (drawRows x0 y0 rows s).D } := rfl
    _ = _ := by rw [h2]

section Fields

variable (x y x0 y0 rows : Nat) (bit : Bool) (b : Byte) (s : State)

@[simp] theorem drawPixel_params : (drawPixel x y bit s).params = s.params := by rw [drawPixel_eq]
@[simp] theorem drawPixel_M : (drawPixel x y bit s).M = s.M := by rw [drawPixel_eq]
@[simp] theorem drawPixel_I : (drawPixel x y bit s).I = s.I := by rw [drawPixel_eq]
@[simp] theorem drawRow_params : (drawRow x0 y b s).params = s.params := by rw [drawRow_eq]
@[simp] theorem drawRow_M : (drawRow x0 y b s).M = s.M := by rw [drawRow_eq]
@[simp] theorem drawRow_I : (drawRow x0 y b s).I = s.I := by rw [drawRow_eq]
@[simp] theorem drawRows_params : (drawRows x0 y0 rows s).params = s.params := by rw [drawRows_eq]
@[simp] theorem drawRows_M : (drawRows x0 y0 rows s).M = s.M := by rw [drawRows_eq]
@[simp] theorem drawRows_I : (drawRows x0 y0 rows s).I = s.I := by rw [drawRows_eq]
@[simp] theorem drawRows_pc : (drawRows x0 y0 rows s).pc = s.pc := by rw [drawRows_eq]
@[simp] theorem drawRows_S : (drawRows x0 y0 rows s).S = s.S := by rw [drawRows_eq]
@[simp] theorem drawRows_DT : (drawRows x0 y0 rows s).DT = s.DT := by rw [drawRows_eq]
@[simp] theorem drawRows_rng : (drawRows x0 y0 rows s).rng = s.rng := by rw [drawRows_eq]
@[simp] theorem drawRows_draws : (drawRows x0 y0 rows s).draws = s.draws := by rw [drawRows_eq]
@[simp] theorem drawRows_fault : (drawRows x0 y0 rows s).fault = s.fault := by rw [drawRows_eq]
@[simp] theorem drawRows_timerRunning :
    (drawRows x0 y0 rows s).timerRunning = s.timerRunning := by rw [drawRows_eq]
@[simp] theorem drawRows_tickIndex :
    (drawRows x0 y0 rows s).tickIndex = s.tickIndex := by rw [drawRows_eq]
@[simp] theorem readByte_drawRow (a : Nat) :
    (drawRow x0 y b s).readByte a = s.readByte a := by simp [State.readByte]
@[simp] theorem readByte_drawRows (a : Nat) :
    (drawRows x0 y0 rows s).readByte a = s.readByte a := by simp [State.readByte]

end Fields

/-! ### The draw keeps the grid -/

theorem gridShape_drawPixel {s : State} (h : GridShape s) (x y : Nat) (bit : Bool) :
    GridShape (drawPixel x y bit s) := by
  unfold drawPixel
  rw [noteCollision_eq]
  exact gridShape_setPixel h x y _

theorem gridShape_drawRow {s : State} (h : GridShape s) (x0 y : Nat) (b : Byte) :
    GridShape (drawRow x0 y b s) :=
  foldl_range_invariant GridShape _ (fun _ _ ht => gridShape_drawPixel ht _ _ _) _ h

theorem gridShape_drawRows {s : State} (h : GridShape s) (x0 y0 rows : Nat) :
    GridShape (drawRows x0 y0 rows s) :=
  foldl_range_invariant GridShape _ (fun _ _ ht => gridShape_drawRow ht _ _ _) _ h

/-! ### What one pixel and one row of a draw do -/

/-- One pixel of a draw inside the grid: it is XORed with the sprite bit, every other pixel is as
before (R93). -/
theorem pixel_drawPixel {s : State} (h : GridShape s) {x y : Nat} (hx : x < s.params.width)
    (hy : y < s.params.height) (bit : Bool) (px py : Nat) :
    (drawPixel x y bit s).pixel px py =
      if px = x ∧ py = y then s.pixel x y ^^ bit else s.pixel px py := by
  unfold drawPixel
  rw [pixel_noteCollision, pixel_setPixel h hx hy]

/-- One pixel of a draw: VF becomes 1 exactly on a collision, every other register is as before
(R92). -/
theorem getV_drawPixel (s : State) (x y : Nat) (bit : Bool) (r : Nibble) :
    (drawPixel x y bit s).getV r =
      if (s.pixel x y && bit) = true ∧ r = flagRegister then 1 else s.getV r := by
  unfold drawPixel
  rw [getV_noteCollision]
  cases s.pixel x y <;> cases bit <;> simp [collides]

/-- No register but VF changes in a draw (10_state.md R22). -/
theorem getV_drawRow_other (s : State) (x0 y : Nat) (b : Byte) {r : Nibble}
    (hr : r ≠ flagRegister) : (drawRow x0 y b s).getV r = s.getV r :=
  foldl_range_frame (fun t : State => t.getV r) _
    (fun t k => by simp [getV_drawPixel, hr]) _ s

theorem getV_drawRows_other (s : State) (x0 y0 rows : Nat) {r : Nibble}
    (hr : r ≠ flagRegister) : (drawRows x0 y0 rows s).getV r = s.getV r :=
  foldl_range_frame (fun t : State => t.getV r) _
    (fun t k => by simp [getV_drawRow_other, hr]) _ s

/-- The draw's own loop over columns, run for `n` of them. -/
def drawColumns (x0 y : Nat) (b : Byte) (n : Nat) (s : State) : State :=
  (List.range n).foldl (fun t col => drawPixel (x0 + col) y (spriteBit b col) t) s

theorem drawRow_eq_columns (x0 y : Nat) (b : Byte) (s : State) :
    drawRow x0 y b s = drawColumns x0 y b (visibleColumns s.params.width x0) s := rfl

theorem gridShape_drawColumns {s : State} (h : GridShape s) (x0 y : Nat) (b : Byte) (n : Nat) :
    GridShape (drawColumns x0 y b n s) :=
  foldl_range_invariant GridShape _ (fun _ _ ht => gridShape_drawPixel ht _ _ _) _ h

@[simp] theorem drawColumns_params (x0 y : Nat) (b : Byte) (n : Nat) (s : State) :
    (drawColumns x0 y b n s).params = s.params :=
  foldl_range_frame (fun t : State => t.params) _ (fun t k => by simp) n s

theorem drawColumns_succ (x0 y : Nat) (b : Byte) (n : Nat) (s : State) :
    drawColumns x0 y b (n + 1) s =
      drawPixel (x0 + n) y (spriteBit b n) (drawColumns x0 y b n s) :=
  foldl_range_succ _ n s

/-- After `n` columns: those `n` pixels of the row are XORed with the sprite's bits, every other
pixel is as before. -/
theorem pixel_drawColumns {s : State} (h : GridShape s) {x0 y : Nat} (b : Byte) {n : Nat}
    (hx : x0 + n ≤ s.params.width) (hy : y < s.params.height) (px py : Nat) :
    (drawColumns x0 y b n s).pixel px py =
      if py = y ∧ x0 ≤ px ∧ px < x0 + n then s.pixel px py ^^ spriteBit b (px - x0)
      else s.pixel px py := by
  induction n with
  | zero =>
    rw [if_neg (by omega)]
    rfl
  | succ n ih =>
    have ih := ih (by omega)
    rw [drawColumns_succ, pixel_drawPixel (gridShape_drawColumns h x0 y b n)
      (by rw [drawColumns_params]; omega) (by rw [drawColumns_params]; exact hy)]
    by_cases hp : px = x0 + n ∧ py = y
    · obtain ⟨rfl, rfl⟩ := hp
      rw [if_pos ⟨rfl, rfl⟩, if_pos ⟨rfl, by omega, by omega⟩, ih, if_neg (by omega),
        Nat.add_sub_cancel_left]
    · rw [if_neg hp, ih]
      by_cases hq : py = y ∧ x0 ≤ px ∧ px < x0 + n
      · rw [if_pos hq, if_pos ⟨hq.1, hq.2.1, by omega⟩]
      · rw [if_neg hq, if_neg (by omega)]

/-- After `n` columns: VF is 1 when one of those pixels was on under a sprite bit of 1, and is as
before when none was (R92). -/
theorem VF_drawColumns {s : State} (h : GridShape s) {x0 y : Nat} (b : Byte) {n : Nat}
    (hx : x0 + n ≤ s.params.width) (hy : y < s.params.height) :
    ((∃ px, x0 ≤ px ∧ px < x0 + n ∧ s.pixel px y = true ∧ spriteBit b (px - x0) = true) →
      (drawColumns x0 y b n s).getV flagRegister = 1) ∧
    ((¬ ∃ px, x0 ≤ px ∧ px < x0 + n ∧ s.pixel px y = true ∧ spriteBit b (px - x0) = true) →
      (drawColumns x0 y b n s).getV flagRegister = s.getV flagRegister) := by
  induction n with
  | zero =>
    refine ⟨?_, fun _ => rfl⟩
    rintro ⟨px, h1, h2, _⟩
    omega
  | succ n ih =>
    have hcur : (drawColumns x0 y b n s).pixel (x0 + n) y = s.pixel (x0 + n) y := by
      rw [pixel_drawColumns h b (by omega) hy, if_neg (by omega)]
    have ih := ih (by omega)
    rw [drawColumns_succ, getV_drawPixel, hcur]
    constructor
    · rintro ⟨px, h1, h2, h3, h4⟩
      by_cases hp : px = x0 + n
      · subst hp
        rw [Nat.add_sub_cancel_left] at h4
        simp [h3, h4]
      · split
        · rfl
        · exact ih.1 ⟨px, h1, by omega, h3, h4⟩
    · intro hno
      rw [if_neg, ih.2]
      · rintro ⟨px, h1, h2, h3⟩
        exact hno ⟨px, h1, by omega, h3⟩
      · rintro ⟨hc, _⟩
        rw [Bool.and_eq_true] at hc
        exact hno ⟨x0 + n, by omega, by omega, hc.1, by rw [Nat.add_sub_cancel_left]; exact hc.2⟩

/-! ### What a whole draw does -/

/-- The last row of a draw comes after the rows above it, from the state's own memory. -/
theorem drawRows_succ (x0 y0 n : Nat) (s : State) :
    drawRows x0 y0 (n + 1) s =
      drawColumns x0 (y0 + n) (s.readByte (s.I.toNat + n)) (visibleColumns s.params.width x0)
        (drawRows x0 y0 n s) := by
  have hround : drawRows x0 y0 (n + 1) s =
      drawRow x0 (y0 + n)
        ((drawRows x0 y0 n s).readByte (effectiveAddress (drawRows x0 y0 n s).I n))
        (drawRows x0 y0 n s) := foldl_range_succ _ n s
  rw [hround, drawRow_eq_columns, readByte_drawRows, drawRows_I, drawRows_params, effectiveAddress]

/-- A sprite bit of 1 lies under the pixel (px, py) of a draw anchored at (x0, y0). -/
def spriteBitAt (s : State) (x0 y0 px py : Nat) : Bool :=
  spriteBit (s.readByte (s.I.toNat + (py - y0))) (px - x0)

/-- After `n` rows on screen: the pixels of the rectangle are XORed with the sprite's bits, every
other pixel is as before. -/
theorem pixel_drawRows {s : State} (h : GridShape s) {x0 y0 n : Nat} (hx : x0 < s.params.width)
    (hy : n = 0 ∨ y0 + n ≤ s.params.height) (px py : Nat) :
    (drawRows x0 y0 n s).pixel px py =
      if x0 ≤ px ∧ px < x0 + visibleColumns s.params.width x0 ∧ y0 ≤ py ∧ py < y0 + n then
        s.pixel px py ^^ spriteBitAt s x0 y0 px py
      else s.pixel px py := by
  have hC : x0 + visibleColumns s.params.width x0 ≤ s.params.width := by
    unfold visibleColumns
    omega
  induction n with
  | zero =>
    rw [if_neg (by omega)]
    rfl
  | succ n ih =>
    have ih := ih (by omega)
    rw [drawRows_succ, pixel_drawColumns (gridShape_drawRows h _ _ _) _
      (by rw [drawRows_params]; exact hC) (by rw [drawRows_params]; omega), ih]
    generalize visibleColumns s.params.width x0 = C at *
    by_cases hp : py = y0 + n ∧ x0 ≤ px ∧ px < x0 + C
    · obtain ⟨rfl, h1, h2⟩ := hp
      rw [if_pos ⟨rfl, h1, h2⟩, if_neg (by omega), if_pos ⟨h1, h2, by omega, by omega⟩,
        spriteBitAt, Nat.add_sub_cancel_left]
    · rw [if_neg hp]
      by_cases hq : x0 ≤ px ∧ px < x0 + C ∧ y0 ≤ py ∧ py < y0 + n
      · rw [if_pos hq, if_pos (by omega)]
      · rw [if_neg hq, if_neg (by omega)]

/-- After `n` rows on screen: VF is 1 when a pixel of the rectangle was on under a sprite bit of 1,
and is as before when none was (R92). -/
theorem VF_drawRows {s : State} (h : GridShape s) {x0 y0 n C : Nat} (hx : x0 < s.params.width)
    (hC : C = visibleColumns s.params.width x0) (hy : n = 0 ∨ y0 + n ≤ s.params.height) :
    ((∃ px py, x0 ≤ px ∧ px < x0 + C ∧ y0 ≤ py ∧ py < y0 + n ∧ s.pixel px py = true
        ∧ spriteBitAt s x0 y0 px py = true) →
      (drawRows x0 y0 n s).getV flagRegister = 1) ∧
    ((¬ ∃ px py, x0 ≤ px ∧ px < x0 + C ∧ y0 ≤ py ∧ py < y0 + n ∧ s.pixel px py = true
        ∧ spriteBitAt s x0 y0 px py = true) →
      (drawRows x0 y0 n s).getV flagRegister = s.getV flagRegister) := by
  have hwide : x0 + C ≤ s.params.width := by
    rw [hC]
    unfold visibleColumns
    omega
  induction n with
  | zero =>
    refine ⟨?_, fun _ => rfl⟩
    rintro ⟨px, py, _, _, h3, h4, _⟩
    omega
  | succ n ih =>
    have hrow : y0 + n < s.params.height := by omega
    have hcur : ∀ px, (drawRows x0 y0 n s).pixel px (y0 + n) = s.pixel px (y0 + n) := fun px => by
      rw [pixel_drawRows h hx (.inr (Nat.le_of_lt hrow)),
        if_neg fun hc => Nat.lt_irrefl _ hc.2.2.2]
    have hlast := VF_drawColumns (gridShape_drawRows h x0 y0 n) (x0 := x0) (y := y0 + n)
      (s.readByte (s.I.toNat + n)) (n := C) (by rw [drawRows_params]; exact hwide)
      (by rw [drawRows_params]; exact hrow)
    simp only [hcur] at hlast
    rw [hC, ← drawRows_succ, ← hC] at hlast
    have ih := ih (by omega)
    have hbit : ∀ px, spriteBitAt s x0 y0 px (y0 + n) =
        spriteBit (s.readByte (s.I.toNat + n)) (px - x0) := fun px => by
      rw [spriteBitAt, Nat.add_sub_cancel_left]
    by_cases hnew : ∃ px, x0 ≤ px ∧ px < x0 + C ∧ s.pixel px (y0 + n) = true
        ∧ spriteBit (s.readByte (s.I.toNat + n)) (px - x0) = true
    · refine ⟨fun _ => hlast.1 hnew, fun hno => absurd ?_ hno⟩
      obtain ⟨px, h1, h2, h3, h4⟩ := hnew
      exact ⟨px, y0 + n, h1, h2, by omega, by omega, h3, by rw [hbit]; exact h4⟩
    · rw [hlast.2 hnew]
      constructor
      · rintro ⟨px, py, h1, h2, h3, h4, h5, h6⟩
        by_cases hp : py = y0 + n
        · subst hp
          exact absurd ⟨px, h1, h2, h5, by rw [← hbit]; exact h6⟩ hnew
        · exact ih.1 ⟨px, py, h1, h2, h3, by omega, h5, h6⟩
      · intro hno
        refine ih.2 ?_
        rintro ⟨px, py, h1, h2, h3, h4, h5⟩
        exact hno ⟨px, py, h1, h2, h3, by omega, h5⟩

end Sys2Proof.Machine
end

