-- ==== Sys2Proof/Laws/Ops.lean ====
section
/-! SUPPORT. What each shared operation does, once: the fault, the range check, the fetch, the block
load, the tick. -/

namespace Sys2Proof.Machine

/-! ### Taking a fault -/

@[simp] theorem Fault.record_of (r : FaultRecord) (t : State) : (Fault.of r t).record = r := by
  cases r <;> rfl

@[simp] theorem Fault.after_of (r : FaultRecord) (t : State) : (Fault.of r t).after = t := by
  cases r <;> rfl

/-- A raise is a fault, with its record in `fault` and nothing else changed (R13, R150). -/
theorem raise_eq_fault_iff {r : FaultRecord} {s : State} {f : Fault} :
    raise r s = .fault f ↔ f = Fault.of r (s.recordFault r) := by
  unfold raise
  constructor
  · intro h
    cases h
    rfl
  · rintro rfl
    rfl

theorem raise_ne_next {r : FaultRecord} {s t : State} : raise r s ≠ .next t := by
  intro h
  cases h

theorem raise_ne_refused {r : FaultRecord} {s : State} {q : Refusal} : raise r s ≠ .refused q := by
  intro h
  cases h

/-! ### The range check (R123) -/

theorem outOfRange_eq_none_iff {s : State} {n : Nat} :
    outOfRange s n = none ↔ n = 0 ∨ s.I.toNat + n ≤ s.params.memSize := by
  unfold outOfRange
  split <;> simp [*]

theorem outOfRange_eq_some_iff {s : State} {n a : Nat} :
    outOfRange s n = some a ↔
      n ≠ 0 ∧ s.params.memSize < s.I.toNat + n ∧ a = max s.I.toNat s.params.memSize := by
  unfold outOfRange
  split
  · rename_i h
    simp only [reduceCtorEq, false_iff]
    omega
  · rename_i h
    simp only [Option.some.injEq]
    omega

/-- The address a failing check reports is the lowest one at or past MEM_SIZE that the access would
touch (R123, R145). -/
theorem outOfRange_lowest {s : State} {n a : Nat} (h : outOfRange s n = some a) :
    s.params.memSize ≤ a ∧ (∃ k < n, a = s.I.toNat + k) ∧
      ∀ k < n, s.params.memSize ≤ s.I.toNat + k → a ≤ s.I.toNat + k := by
  obtain ⟨hn, hlt, rfl⟩ := outOfRange_eq_some_iff.mp h
  refine ⟨by omega, ⟨max s.I.toNat s.params.memSize - s.I.toNat, by omega, by omega⟩, ?_⟩
  intro k hk hle
  omega

/-! ### The checked primitives (R12) and the fetch (R80, R81) -/

theorem memRead_ok {s : State} {a : Nat} (h : a < s.params.memSize) :
    memRead s a = .ok (s.readByte a) := if_pos h

theorem memRead_error {s : State} {a : Nat} (h : s.params.memSize ≤ a) :
    memRead s a = .error a := if_neg (by omega)

theorem memWrite_ok {s : State} {a : Nat} (v : Byte) (h : a < s.params.memSize) :
    memWrite s a v = .ok (s.writeByte a v) := if_pos h

theorem memWrite_error {s : State} {a : Nat} (v : Byte) (h : s.params.memSize ≤ a) :
    memWrite s a v = .error a := if_neg (by omega)

theorem fetch_ok {s : State} (h : s.pc.toNat + 1 < s.params.memSize) :
    fetch s = .ok (wordOfBytes (s.readByte s.pc.toNat) (s.readByte (s.pc.toNat + 1))) := by
  unfold fetch
  rw [memRead_ok (by omega), memRead_ok h]

theorem fetch_error_pc {s : State} (h : s.params.memSize ≤ s.pc.toNat) :
    fetch s = .error s.pc.toNat := by
  unfold fetch
  rw [memRead_error h]

theorem fetch_error_next {s : State} (h : s.pc.toNat + 1 = s.params.memSize) :
    fetch s = .error (s.pc.toNat + 1) := by
  unfold fetch
  rw [memRead_ok (by omega), memRead_error (by omega)]

/-- A fetch that answers a word read both bytes inside memory. -/
theorem fetch_eq_ok_iff {s : State} {op : Word} :
    fetch s = .ok op ↔ s.pc.toNat + 1 < s.params.memSize ∧
      op = wordOfBytes (s.readByte s.pc.toNat) (s.readByte (s.pc.toNat + 1)) := by
  rcases Nat.lt_trichotomy (s.pc.toNat + 1) s.params.memSize with h | h | h
  · simp [fetch_ok h, h, eq_comm]
  · simp [fetch_error_next h, h]
  · rw [fetch_error_pc (by omega)]
    simp only [reduceCtorEq, false_iff]
    omega

/-- The fetch reads only pc and memory. -/
theorem fetch_congr {s t : State} (hp : t.params = s.params) (hpc : t.pc = s.pc) (hM : t.M = s.M) :
    fetch t = fetch s := by
  simp only [fetch, memRead, State.readByte, hp, hpc, hM]

/-- The word's bytes come back from the two halves the fetch reads. -/
@[simp] theorem wordOfBytes_high_low (w : Word) : wordOfBytes (highByte w) (lowByte w) = w := by
  apply BitVec.eq_of_getLsbD_eq
  intro k hk
  change ((highByte w ++ lowByte w : BitVec (8 + 8))).getLsbD k = w.getLsbD k
  rw [BitVec.getLsbD_append, highByte, lowByte, BitVec.getLsbD_extractLsb',
    BitVec.getLsbD_extractLsb']
  by_cases h8 : k < 8
  · simp [h8]
  · simp only [h8, if_false, show k - 8 < 8 by omega, decide_true, Bool.true_and]
    rw [show 8 + (k - 8) = k by omega]

/-! ### The block load (R125) -/

/-- A block load changes only the registers. -/
theorem loadRegisters_eq (n : Nat) (s : State) :
    loadRegisters n s = { s with V := (loadRegisters n s).V } := by
  have h2 : ({ loadRegisters n s with V := s.V } : State) = s :=
    foldl_range_frame (fun t : State => { t with V := s.V })
      (fun t k => t.setV (BitVec.ofNat 4 k) (t.readByte (effectiveAddress t.I k)))
      (fun t k => rfl) n s
  calc loadRegisters n s
      = { ({ loadRegisters n s with V := s.V } : State) with V := (loadRegisters n s).V } := rfl
    _ = _ := by rw [h2]

@[simp] theorem readByte_loadRegisters (n : Nat) (s : State) (a : Nat) :
    (loadRegisters n s).readByte a = s.readByte a := by rw [loadRegisters_eq]; rfl

@[simp] theorem pixel_loadRegisters (n : Nat) (s : State) (x y : Nat) :
    (loadRegisters n s).pixel x y = s.pixel x y := by rw [loadRegisters_eq]; rfl

@[simp] theorem loadRegisters_I (n : Nat) (s : State) : (loadRegisters n s).I = s.I := by
  rw [loadRegisters_eq]

/-- Each of the first `n` registers holds its byte of memory, every other is as before (R125). -/
theorem getV_loadRegisters {n : Nat} (hn : n ≤ 16) (s : State) (r : Nibble) :
    (loadRegisters n s).getV r =
      if r.toNat < n then s.readByte (s.I.toNat + r.toNat) else s.getV r := by
  induction n with
  | zero => rfl
  | succ n ih =>
    have ih := ih (by omega)
    have hround : loadRegisters (n + 1) s =
        (loadRegisters n s).setV (BitVec.ofNat 4 n) (s.readByte (s.I.toNat + n)) := by
      rw [loadRegisters, foldl_range_succ, ← loadRegisters, readByte_loadRegisters,
        loadRegisters_I, effectiveAddress]
    have hmod : (BitVec.ofNat 4 n).toNat = n := by
      rw [BitVec.toNat_ofNat]
      omega
    rw [hround, State.getV_setV, ih]
    by_cases hr : r = BitVec.ofNat 4 n
    · rw [if_pos hr, hr, hmod, if_pos (by omega)]
    · have hne : r.toNat ≠ n := fun h => hr (by rw [← h]; simp)
      rw [if_neg hr]
      by_cases hlt : r.toNat < n
      · rw [if_pos hlt, if_pos (by omega)]
      · rw [if_neg hlt, if_neg (by omega)]

/-! ### The generator (43_alu.md R116, 60_exceptions.md R168) -/

/-- A row gives RNG_NEXT's value; without one it is free. -/
theorem generatorStep_of_row {g : Generator} {state : Nat} {r : Byte × Nat}
    (h : g.nextRows.lookup state = some r) : generatorStep g state = r := by
  rw [generatorStep, h, Option.getD_some]

theorem generatorStep_of_no_row {g : Generator} {state : Nat} (h : g.nextRows.lookup state = none) :
    generatorStep g state = Config.rngNext g.name state := by
  rw [generatorStep, h, Option.getD_none]

theorem generatorSeed_of_row {g : Generator} {seed state : Nat}
    (h : g.seedRows.lookup seed = some state) : generatorSeed g seed = state := by
  rw [generatorSeed, h, Option.getD_some]

theorem generatorSeed_of_no_row {g : Generator} {seed : Nat} (h : g.seedRows.lookup seed = none) :
    generatorSeed g seed = Config.rngOfSeed g.name seed := by
  rw [generatorSeed, h, Option.getD_none]

theorem generator_of_rngNext {s : State} {g : Generator} (h : s.params.rngNext = some g) :
    s.generator = g := by
  rw [State.generator, h, Option.getD_some]

/-- `random_byte()` without RNG_NEXT, and with it (R116). -/
theorem randomByte_of_draws {s : State} (h : s.params.rngNext = none) :
    randomByte s = Config.draw8 s.draws := by
  rw [randomByte, h]

theorem randomByte_of_generator {s : State} {g : Generator} (h : s.params.rngNext = some g) :
    randomByte s = (generatorStep g s.rng).1 := by
  rw [randomByte, h]

/-- `set_seed` for a value of the seed type, and for any other (R168). -/
theorem hostSetSeed_accepted {s : State} {seed : Nat} (h : seedAccepted s.params seed = true) :
    hostSetSeed seed s = (s.reseed seed, .done) := if_pos h

theorem hostSetSeed_refused {s : State} {seed : Nat} (h : seedAccepted s.params seed = false) :
    hostSetSeed seed s = (s, .error (.seedNotAccepted seed)) := by
  simp [hostSetSeed, h]

/-! ### Ticks (R133) -/

theorem tick_eq (s : State) : tick s = { s with DT := (tick s).DT } := by
  unfold tick
  split
  · split <;> rfl
  · rfl

/-- While the timer task runs a tick counts down and stops at 0; while it does not, no tick occurs
(R133). -/
theorem tick_DT (s : State) :
    (tick s).DT.toNat = if s.timerRunning = true then s.DT.toNat - 1 else s.DT.toNat := by
  unfold tick
  split
  · split
    · rename_i h
      simp [h]
    · rename_i h
      have : s.DT.toNat ≠ 0 := fun h0 => h (BitVec.eq_of_toNat_eq (by simpa using h0))
      have hlt := s.DT.isLt
      have hone : (1 : Byte).toNat = 1 := rfl
      simp only [State.setDT_DT, BitVec.toNat_sub, hone]
      omega
  · rfl

@[simp] theorem tick_timerRunning (s : State) : (tick s).timerRunning = s.timerRunning := by
  rw [tick_eq]

theorem ticks_eq (k : Nat) (s : State) : ticks k s = { s with DT := (ticks k s).DT } := by
  induction k generalizing s with
  | zero => rfl
  | succ k ih =>
    rw [ticks, ih, tick_eq]

/-- While the timer task is stopped no tick changes anything (R133). -/
theorem ticks_stopped {s : State} (h : s.timerRunning = false) (k : Nat) : ticks k s = s := by
  induction k with
  | zero => rfl
  | succ k ih =>
    have hone : tick s = s := by simp [tick, h]
    rw [ticks, hone, ih]

theorem deliverTicks_eq (s : State) :
    deliverTicks s =
      { s with DT := (deliverTicks s).DT, tickIndex := (deliverTicks s).tickIndex } := by
  unfold deliverTicks
  split
  · rw [ticks_eq]
  · rfl

/-- While the timer task is stopped no tick falls before a cycle (R133). -/
theorem deliverTicks_stopped {s : State} (h : s.timerRunning = false) : deliverTicks s = s := by
  simp [deliverTicks, h]

section DeliverTicks

variable (s : State)

@[simp] theorem deliverTicks_params : (deliverTicks s).params = s.params := by rw [deliverTicks_eq]
@[simp] theorem deliverTicks_M : (deliverTicks s).M = s.M := by rw [deliverTicks_eq]
@[simp] theorem deliverTicks_V : (deliverTicks s).V = s.V := by rw [deliverTicks_eq]
@[simp] theorem deliverTicks_I : (deliverTicks s).I = s.I := by rw [deliverTicks_eq]
@[simp] theorem deliverTicks_pc : (deliverTicks s).pc = s.pc := by rw [deliverTicks_eq]
@[simp] theorem deliverTicks_S : (deliverTicks s).S = s.S := by rw [deliverTicks_eq]
@[simp] theorem deliverTicks_D : (deliverTicks s).D = s.D := by rw [deliverTicks_eq]
@[simp] theorem deliverTicks_rng : (deliverTicks s).rng = s.rng := by rw [deliverTicks_eq]
@[simp] theorem deliverTicks_draws : (deliverTicks s).draws = s.draws := by rw [deliverTicks_eq]
@[simp] theorem deliverTicks_fault : (deliverTicks s).fault = s.fault := by rw [deliverTicks_eq]
@[simp] theorem deliverTicks_timerRunning :
    (deliverTicks s).timerRunning = s.timerRunning := by rw [deliverTicks_eq]
@[simp] theorem getV_deliverTicks (r : Nibble) : (deliverTicks s).getV r = s.getV r := by
  rw [deliverTicks_eq]; rfl
@[simp] theorem readByte_deliverTicks (a : Nat) :
    (deliverTicks s).readByte a = s.readByte a := by rw [deliverTicks_eq]; rfl
@[simp] theorem pixel_deliverTicks (x y : Nat) :
    (deliverTicks s).pixel x y = s.pixel x y := by rw [deliverTicks_eq]; rfl
@[simp] theorem fetch_deliverTicks : fetch (deliverTicks s) = fetch s :=
  fetch_congr (deliverTicks_params s) (deliverTicks_pc s) (deliverTicks_M s)

end DeliverTicks

/-- State.reset is construction with the default parameters followed by `reset()` (R184; log 3). -/
theorem reset_eq_construct_then_reset :
    State.reset = resetPc (State.construct Params.standard Launch.zero) := rfl

end Sys2Proof.Machine
end

