-- ==== Sys2Proof/Laws/Cycle.lean ====
section
/-! SUPPORT. What a cycle and a step can do, said once: every branch, with its guards. -/

namespace Sys2Proof.Machine

/-- `execute(op)`: the illegal word, or the instruction (40_cycle.md R83). -/
theorem execute_of_instr {op : Word} {i : Instr} (h : decode op = .instr i) (s : State) :
    execute op s = exec i s := by
  rw [execute, h]

theorem execute_of_illegal {op bad : Word} (h : decode op = .opcodeNotSupported bad) (s : State) :
    execute op s = raise (.opcodeNotSupported op) s := by
  rw [execute, h, decode_opcodeNotSupported_word h]

theorem gated_of_fault {s : State} {r : FaultRecord} (h : s.fault = some r)
    (operation : State → Result) : gated operation s = .refused (.faultPending r) := by
  rw [gated, h]

theorem gated_of_no_fault {s : State} (h : s.fault = none) (operation : State → Result) :
    gated operation s = operation s := by
  rw [gated, h]

/-- The four things `advance()` can do (R82 to R85): it is refused, the fetch faults, the word is
illegal, or the decoded instruction executes with pc advanced. -/
theorem advance_cases (s : State) :
    (∃ r, s.fault = some r ∧ advance s = .refused (.faultPending r)) ∨
    (∃ a, s.fault = none ∧ fetch s = .error a ∧ advance s = raise (.addressOutOfRange a) s) ∨
    (∃ op, s.fault = none ∧ fetch s = .ok op ∧ decode op = .opcodeNotSupported op ∧
      advance s = raise (.opcodeNotSupported op) s.advancePc) ∨
    (∃ op i, s.fault = none ∧ fetch s = .ok op ∧ decode op = .instr i ∧
      advance s = exec i s.advancePc) := by
  cases hf : s.fault with
  | some r => exact .inl ⟨r, rfl, gated_of_fault hf _⟩
  | none =>
    refine .inr ?_
    have hadv : advance s = cycle s := gated_of_no_fault hf _
    cases hfetch : fetch s with
    | error a =>
      refine .inl ⟨a, rfl, rfl, ?_⟩
      rw [hadv, cycle, hfetch]
    | ok op =>
      refine .inr ?_
      have hcyc : advance s = execute op s.advancePc := by rw [hadv, cycle, hfetch]
      cases hdec : decode op with
      | opcodeNotSupported bad =>
        have hbad := decode_opcodeNotSupported_word hdec
        refine .inl ⟨op, rfl, rfl, by rw [hdec, hbad], ?_⟩
        rw [hcyc, execute_of_illegal hdec]
      | instr i =>
        refine .inr ⟨op, i, rfl, rfl, hdec, ?_⟩
        rw [hcyc, execute_of_instr hdec]

/-- A cycle that answers a next state executed a decoded instruction, from a state without a
fault. -/
theorem advance_next {s t : State} (h : advance s = .next t) :
    ∃ op i, s.fault = none ∧ fetch s = .ok op ∧ decode op = .instr i ∧
      exec i s.advancePc = .next t := by
  rcases advance_cases s with ⟨r, _, hr⟩ | ⟨a, _, _, hr⟩ | ⟨op, _, _, _, hr⟩ | ⟨op, i, h0, h1, h2, hr⟩
  · rw [hr] at h
    cases h
  · exact absurd (hr.symm.trans h) raise_ne_next
  · exact absurd (hr.symm.trans h) raise_ne_next
  · exact ⟨op, i, h0, h1, h2, hr.symm.trans h⟩

/-- The next state of each instruction that can also fault, with the guard under which it is
reached. -/
theorem execRet_next {s t : State} (h : execRet s = .next t) :
    ∃ a, s.top? = some a ∧ t = s.pop.setPc a := by
  unfold execRet at h
  split at h
  · exact absurd h raise_ne_next
  · cases h
    exact ⟨_, ‹_›, rfl⟩

theorem execCall_next {nnn : Addr12} {s t : State} (h : execCall nnn s = .next t) :
    s.stackFull = false ∧ t = (s.push s.pc).setPc (targetOf nnn) := by
  unfold execCall at h
  split at h
  · exact absurd h raise_ne_next
  · cases h
    exact ⟨by simpa using ‹¬s.stackFull = true›, rfl⟩

theorem execDrw_next {x y n : Nibble} {s t : State} (h : execDrw x y n s = .next t) :
    ∃ x0 y0 rows, x0 = anchor (s.getV x) s.params.width ∧
      y0 = anchor (s.getV y) s.params.height ∧ rows = visibleRows n s.params.height y0 ∧
      outOfRange s rows = none ∧ t = drawRows x0 y0 rows s := by
  simp only [execDrw] at h
  split at h
  · exact absurd h raise_ne_next
  · cases h
    exact ⟨_, _, _, rfl, rfl, rfl, ‹_›, rfl⟩

theorem execLdBVx_next {x : Nibble} {s t : State} (h : execLdBVx x s = .next t) :
    outOfRange s 3 = none ∧
      t = storeBytes (effectiveAddress s.I 0)
        [hundredsDigit (s.getV x), tensDigit (s.getV x), onesDigit (s.getV x)] s := by
  unfold execLdBVx at h
  split at h
  · exact absurd h raise_ne_next
  · cases h
    exact ⟨‹_›, rfl⟩

theorem execLdVxI_next {x : Nibble} {s t : State} (h : execLdVxI x s = .next t) :
    outOfRange s (x.toNat + 1) = none ∧ t = loadRegisters (x.toNat + 1) s := by
  unfold execLdVxI at h
  split at h
  · exact absurd h raise_ne_next
  · cases h
    exact ⟨‹_›, rfl⟩

/-- The skip, taken and not taken (42_control_flow.md R104). -/
theorem execSe_taken {x : Nibble} {nn : Byte} {s : State} (h : s.getV x = nn) :
    execSe x nn s = .next s.advancePc := by
  rw [execSe, if_pos h]

theorem execSe_not_taken {x : Nibble} {nn : Byte} {s : State} (h : s.getV x ≠ nn) :
    execSe x nn s = .next s := by
  rw [execSe, if_neg h]

/-! ### What a fault leaves (60_exceptions.md R150) -/

/-- An instruction that faults records the fault and changes nothing else. -/
theorem exec_fault_after {i : Instr} {s : State} {f : Fault} (h : exec i s = .fault f) :
    f.after = s.recordFault f.record := by
  have raised : ∀ r : FaultRecord, raise r s = .fault f → f.after = s.recordFault f.record := by
    intro r hr
    rw [raise_eq_fault_iff] at hr
    rw [hr, Fault.after_of, Fault.record_of]
  cases i
  case ret =>
    simp only [exec, execRet] at h
    split at h
    · exact raised _ h
    · cases h
  case call =>
    simp only [exec, execCall] at h
    split at h
    · exact raised _ h
    · cases h
  case drw =>
    simp only [exec, execDrw] at h
    split at h
    · exact raised _ h
    · cases h
  case ldBVx =>
    simp only [exec, execLdBVx] at h
    split at h
    · exact raised _ h
    · cases h
  case ldVxI =>
    simp only [exec, execLdVxI] at h
    split at h
    · exact raised _ h
    · cases h
  all_goals cases h

theorem execute_fault_after {op : Word} {s : State} {f : Fault} (h : execute op s = .fault f) :
    f.after = s.recordFault f.record := by
  rcases decode_total op with ⟨i, hi⟩ | hi
  · rw [execute_of_instr hi] at h
    exact exec_fault_after h
  · rw [execute_of_illegal hi, raise_eq_fault_iff] at h
    rw [h, Fault.after_of, Fault.record_of]

theorem execute_next {op : Word} {s t : State} (h : execute op s = .next t) :
    ∃ i, decode op = .instr i ∧ exec i s = .next t := by
  rcases decode_total op with ⟨i, hi⟩ | hi
  · rw [execute_of_instr hi] at h
    exact ⟨i, hi, h⟩
  · rw [execute_of_illegal hi] at h
    exact absurd h raise_ne_next

/-- A gated operation is refused or runs (R84). -/
theorem gated_cases (operation : State → Result) (s : State) :
    (∃ r, gated operation s = .refused r) ∨ gated operation s = operation s := by
  unfold gated
  split
  · exact .inl ⟨_, rfl⟩
  · exact .inr rfl

end Sys2Proof.Machine
end

