-- ==== Sys2Proof/Laws/PerInstr.lean ====
section
/-! SUPPORT. Per-instruction laws: each instruction's word matches its own row of the opcode map
(30_encoding.md R66, R67). -/

namespace Sys2Proof

/-- Every instruction's operands are in range by their types (30_encoding.md R65). -/
theorem Instr.wellFormed_eq_true (i : Instr) : i.wellFormed = true := by
  cases i <;> simp [Instr.wellFormed, Nibble.selectsRegister] <;> omega

namespace Laws.EncodingMatchesRow

/-- The encoding of the instruction matches its row. -/
def Statement (i : Instr) : Prop := (opcodeRow i).matchesWord (encode i) = true

theorem cls : Statement .cls := beq_iff_eq.mpr (by decide)
theorem ret : Statement .ret := beq_iff_eq.mpr (by decide)
theorem jp (nnn : Addr12) : Statement (.jp nnn) :=
  beq_iff_eq.mpr (class_matches_12 0x1#4 nnn)
theorem call (nnn : Addr12) : Statement (.call nnn) :=
  beq_iff_eq.mpr (class_matches_12 0x2#4 nnn)

theorem se (x : Nibble) (nn : Byte) : Statement (.se x nn) :=
  beq_iff_eq.mpr (class_matches_4_8 0x3#4 x nn)
theorem ldImm (x : Nibble) (nn : Byte) : Statement (.ldImm x nn) :=
  beq_iff_eq.mpr (class_matches_4_8 0x6#4 x nn)
theorem addImm (x : Nibble) (nn : Byte) : Statement (.addImm x nn) :=
  beq_iff_eq.mpr (class_matches_4_8 0x7#4 x nn)
theorem ldI (nnn : Addr12) : Statement (.ldI nnn) :=
  beq_iff_eq.mpr (class_matches_12 0xA#4 nnn)
theorem rnd (x : Nibble) (nn : Byte) : Statement (.rnd x nn) :=
  beq_iff_eq.mpr (class_matches_4_8 0xC#4 x nn)

theorem andReg (x y : Nibble) : Statement (.andReg x y) :=
  beq_iff_eq.mpr (class_matches_nibbles 0x8#4 x y 0x2#4 0xF#4)
theorem drw (x y n : Nibble) : Statement (.drw x y n) :=
  beq_iff_eq.mpr ((class_matches_nibbles 0xD#4 x y n 0x0#4).trans (by rw [BitVec.and_zero]; rfl))

theorem ldVxDt (x : Nibble) : Statement (.ldVxDt x) :=
  beq_iff_eq.mpr (class_matches_low_byte 0xF#4 x 0x07#8)
theorem ldDtVx (x : Nibble) : Statement (.ldDtVx x) :=
  beq_iff_eq.mpr (class_matches_low_byte 0xF#4 x 0x15#8)
theorem ldFVx (x : Nibble) : Statement (.ldFVx x) :=
  beq_iff_eq.mpr (class_matches_low_byte 0xF#4 x 0x29#8)
theorem ldBVx (x : Nibble) : Statement (.ldBVx x) :=
  beq_iff_eq.mpr (class_matches_low_byte 0xF#4 x 0x33#8)
theorem ldVxI (x : Nibble) : Statement (.ldVxI x) :=
  beq_iff_eq.mpr (class_matches_low_byte 0xF#4 x 0x65#8)

end Laws.EncodingMatchesRow

end Sys2Proof
end

