-- ==== Sys2Proof/Tests/Slice0.lean ====
section
/-! SUPPORT. The model's own tests: the construction checks, the decoder on words written out from
spec/, one step per instruction with the expected values of 95_test_vectors.md, and for each statement
with hypotheses a concrete state that meets them. -/

namespace Sys2Proof.Tests

open Sys2Proof Sys2Proof.Machine

/-! ### Helpers -/

/-- A field of the next state, where there is one. -/
def after {α : Type} (r : Result) (f : State → α) : Option α := (nextOf r).map f

/-- The machine after reset with pc at `a` and the word `w` stored there. -/
def at_ (a : Word) (w : Nat) : State := (State.reset.setPc a).withFetchWord 16 w

/-- The pixels that are on among the given ones. -/
def lit (s : State) (l : List (Nat × Nat)) : List Bool := l.map fun p => s.pixel p.1 p.2

/-- A fault's record with the pc it leaves. -/
def faultAt (r : Result) : Option (FaultRecord × Word) :=
  (faultOf r).map fun f => (f.record, f.after.pc)

/-- A small machine: 8 bytes of program area, a 4 by 2 display, a stack of one entry. -/
def tinyParams : Params :=
  { Params.standard with
    memSize := 0x208, width := 4, height := 2, stackDepth := some 1 }

def tiny : State := resetPc (State.construct tinyParams Launch.zero)

/-- The checks behind `State.Inv`, as one Bool. -/
def legal (s : State) : Bool :=
  s.params.wf && Memory.wf s.M && Memory.within s.M s.params.memSize
    && decide (s.D.length = s.params.height) && s.D.all (fun row => decide (row.length = s.params.width))
    && (match s.params.stackDepth with
        | none => true
        | some d => decide (s.S.length ≤ d))

theorem inv_of_legal {s : State} (h : legal s = true) : s.Inv := by
  simp only [legal, Bool.and_eq_true, decide_eq_true_eq, List.all_eq_true] at h
  obtain ⟨⟨⟨⟨⟨h1, h2⟩, h3⟩, h4⟩, h5⟩, h6⟩ := h
  refine ⟨h1, h2, h3, h4, h5, fun d hd => ?_⟩
  rw [hd] at h6
  simpa using h6

theorem reset_inv : State.reset.Inv := inv_of_legal (by decide)

theorem tiny_inv : tiny.Inv := inv_of_legal (by decide)

/-! ### WellFormed: one ill-formed term for each check, refused (00_scope.md R6) -/

theorem test_params_standard_wf : Params.standard.wf = true := by decide
theorem test_params_rom_start_outside_refused :
    ({ Params.standard with romStart := 4096 } : Params).wf = false := by decide
theorem test_params_memory_too_large_refused :
    ({ Params.standard with memSize := 65537 } : Params).wf = false := by decide
theorem test_params_no_columns_refused :
    ({ Params.standard with width := 0 } : Params).wf = false := by decide
theorem test_params_no_rows_refused :
    ({ Params.standard with height := 0 } : Params).wf = false := by decide
theorem test_params_zero_stack_refused :
    ({ Params.standard with stackDepth := some 0 } : Params).wf = false := by decide
theorem test_image_empty_refused : imageFits tinyParams [] = false := by decide
theorem test_image_too_long_refused :
    imageFits tinyParams (List.replicate 9 0xFF#8) = false := by decide
theorem test_image_exact_fits : imageFits tinyParams (List.replicate 8 0xFF#8) = true := by decide
theorem test_memory_zero_byte_not_canonical : Memory.wf [(0x300, 0)] = false := by decide
theorem test_memory_out_of_order_not_canonical : Memory.wf [(0x301, 1), (0x300, 1)] = false := by
  decide
theorem test_memory_outside_refused : Memory.within [(0x208, 1)] tinyParams.memSize = false := by
  decide

/-! ### Decoding: words written from 30_encoding.md R64 and R67 -/

theorem test_decode_display :
    decode 0b0000000011100000#16 = .instr .cls ∧
    decode 0b1101001000110101#16 = .instr (.drw 0x2#4 0x3#4 0x5#4) := by decide
theorem test_decode_control_flow :
    decode 0b0000000011101110#16 = .instr .ret ∧
    decode 0b0001001010011010#16 = .instr (.jp 0x29A#12) ∧
    decode 0b0010010000000001#16 = .instr (.call 0x401#12) ∧
    decode 0b0011001101000010#16 = .instr (.se 0x3#4 0x42#8) := by decide
theorem test_decode_alu :
    decode 0b0110101000101010#16 = .instr (.ldImm 0xA#4 0x2A#8) ∧
    decode 0b0111000011101111#16 = .instr (.addImm 0x0#4 0xEF#8) ∧
    decode 0b1000000111110010#16 = .instr (.andReg 0x1#4 0xF#4) ∧
    decode 0b1100111111110000#16 = .instr (.rnd 0xF#4 0xF0#8) := by decide
theorem test_decode_index_memory :
    decode 0b1010111111111110#16 = .instr (.ldI 0xFFE#12) ∧
    decode 0b1111001100101001#16 = .instr (.ldFVx 0x3#4) ∧
    decode 0b1111000000110011#16 = .instr (.ldBVx 0x0#4) ∧
    decode 0b1111001001100101#16 = .instr (.ldVxI 0x2#4) := by decide
theorem test_decode_delay_timer :
    decode 0b1111101100000111#16 = .instr (.ldVxDt 0xB#4) ∧
    decode 0b1111101000010101#16 = .instr (.ldDtVx 0xA#4) := by decide

/-- A word decodes to no instruction. -/
def unsupported (op : Word) : Bool := decide (decode op = .opcodeNotSupported op)

/-- 95_test_vectors.md, "Decoding": the unsupported words. -/
theorem test_decode_unsupported_class_0 :
    [0x0000#16, 0x01E0#16, 0x0FEE#16, 0x00EF#16, 0x0123#16].map unsupported
      = List.replicate 5 true := by decide
theorem test_decode_unsupported_classes :
    [0x4000#16, 0x5120#16, 0x9120#16, 0xB123#16, 0xE09E#16, 0xE0A1#16].map unsupported
      = List.replicate 6 true := by decide
theorem test_decode_unsupported_class_8 :
    [0x8120#16, 0x8121#16, 0x8123#16, 0x8124#16, 0x8125#16, 0x8126#16, 0x8127#16,
      0x812E#16].map unsupported = List.replicate 8 true := by decide
theorem test_decode_unsupported_class_F :
    [0xF10A#16, 0xF118#16, 0xF11E#16, 0xF155#16].map unsupported = List.replicate 4 true := by decide

theorem test_decode_bytes :
    decodeBytes [0x60#8, 0x3F#8, 0x70#8] = .instr (.ldImm 0x0#4 0x3F#8) [0x70#8] ∧
    decodeBytes [0x90#8, 0x00#8] = .opcodeNotSupported 0x9000#16 ∧
    decodeBytes [0x60#8] = .truncated := by decide
theorem test_decode_table_word :
    decodeTableWord 16 0xD012 = some (.drw 0x0#4 0x1#4 0x2#4) ∧ decodeTableWord 16 0x9000 = none := by
  decide

/-! ### One step per instruction (95_test_vectors.md; the vector's id in the name) -/

theorem test_E5_cls_clears :
    after (step (((at_ 0x200#16 0x00E0).setPixel 0 0 true).setPixel 63 31 true))
      (fun t => (lit t [(0, 0), (63, 31)], t.getV 0xF#4, t.pc)) =
      some ([false, false], 0x00#8, 0x202#16) := by decide

theorem test_V49_ret_is_lifo :
    after (step { at_ 0x200#16 0x00EE with S := [0x202#16, 0x302#16] }) (fun t => (t.S, t.pc)) =
      some ([0x202#16], 0x302#16) := by decide
theorem test_V42_ret_underflow :
    faultAt (step (at_ 0x300#16 0x00EE)) = some (.callStackUnderflow, 0x302#16) := by decide

theorem test_E3_jp : after (step (at_ 0x200#16 0x1F5D)) (·.pc) = some 0xF5D#16 := by decide
theorem test_V48_self_loop :
    nextOf (step (at_ 0x250#16 0x1250)) = some (at_ 0x250#16 0x1250) := by decide

theorem test_V47_call_pushes_advanced_pc :
    after (step (at_ 0xFFE#16 0x2400)) (fun t => (t.S, t.pc)) =
      some ([0x1000#16], 0x400#16) := by decide
theorem test_V43_call_overflow :
    faultAt (step { tiny.withFetchWord 16 0x2204 with S := [0x202#16] }) =
      some (.callStackOverflow, 0x202#16) := by decide

theorem test_V45_se_skips :
    after (step ((at_ 0x200#16 0x3342).setV 0x3#4 0x42#8)) (·.pc) = some 0x204#16 := by decide
theorem test_V6_se_wraps :
    after (step (({ State.reset with
        params := { Params.standard with memSize := 65536 } }.setPc 0xFFFE#16).withFetchWord 16 0x3000))
      (·.pc) = some 0x0002#16 := by decide

theorem test_V61_ld_imm_writes_vf :
    after (step (at_ 0x200#16 0x6FFF)) (fun t => (t.getV 0xF#4, t.getV 0x0#4)) =
      some (0xFF#8, 0x00#8) := by decide

theorem test_V63_add_wraps_without_carry :
    after (step (((at_ 0x200#16 0x7080).setV 0x0#4 0x80#8).setV 0xF#4 0x01#8))
      (fun t => (t.getV 0x0#4, t.getV 0xF#4)) = some (0x00#8, 0x01#8) := by decide
theorem test_E2_add :
    after (step ((at_ 0x200#16 0x7038).setV 0x0#4 0x6F#8)) (·.getV 0x0#4) = some 0xA7#8 := by decide

theorem test_V66_and :
    after (step (((at_ 0x200#16 0x8122).setV 0x1#4 0xF0#8).setV 0x2#4 0x3C#8))
      (fun t => (t.getV 0x1#4, t.getV 0x2#4)) = some (0x30#8, 0x3C#8) := by decide

/-- V70: whatever the draw. -/
theorem test_V70_rnd_mask_zero : after (step (at_ 0x200#16 0xC500)) (·.getV 0x5#4) = some 0x00#8 := by
  have h : step (at_ 0x200#16 0xC500) =
      .next (((at_ 0x200#16 0xC500).advancePc.afterRandomByte).setV 0x5#4
        (randomByte (at_ 0x200#16 0xC500).advancePc &&& 0x00#8)) := rfl
  rw [h, show (0x00#8 : Byte) = 0#8 from rfl, BitVec.and_zero]
  rfl
/-- V72: 0xFF gives the draw itself. -/
theorem test_V72_rnd_mask_all (s : State) (h : s.params.rngNext = none) :
    after (execRnd 0x8#4 0xFF#8 s) (·.getV 0x8#4) = some (Config.draw8 s.draws) := by
  have hall : ∀ b : Byte, b &&& 0xFF#8 = b := fun b => BitVec.and_allOnes
  simp [execRnd, after, nextOf, randomByte, h, hall]

theorem test_E4_ld_i : after (step (at_ 0x200#16 0xABFA)) (·.I) = some 0x0BFA#16 := by decide

theorem test_V82_ld_f_is_no_font_address :
    after (step ((at_ 0x200#16 0xF329).setV 0x3#4 0x0A#8)) (·.I) = some 0x000A#16 := by decide

theorem test_V87_ld_b_at_the_end :
    after (step (((at_ 0x200#16 0xF033).setV 0x0#4 0xFF#8).setI 0xFFD#16))
      (fun t => (readBytes t 0xFFD 3, t.I)) = some ([0x02#8, 0x05#8, 0x05#8], 0xFFD#16) := by decide
theorem test_V88_ld_b_faults :
    faultAt (step (((at_ 0x200#16 0xF033).setV 0x0#4 0xFF#8).setI 0xFFE#16)) =
      some (.addressOutOfRange 0x1000, 0x202#16) := by decide

theorem test_P3_ld_vx_i_stops_at_x :
    after (step (storeBytes 0x300 [0x02#8, 0x05#8, 0x04#8, 0x07#8]
        ((at_ 0x200#16 0xF265).setI 0x300#16)))
      (fun t => (t.V.toList.take 4, t.I)) = some ([0x02#8, 0x05#8, 0x04#8, 0x00#8], 0x300#16) := by
  decide
theorem test_V93_ld_vx_i_faults_at_i :
    faultAt (step ((at_ 0x200#16 0xF065).setI 0x2000#16)) =
      some (.addressOutOfRange 0x2000, 0x202#16) := by decide

/-- V20: the anchors wrap, the row is truncated at the right edge and is not wrapped. -/
theorem test_V20_drw_at_the_corner :
    after (step (storeBytes 0x300 [0xF0#8]
        ((((at_ 0x200#16 0xD011).setV 0x0#4 0x7E#8).setV 0x1#4 0x3F#8).setI 0x300#16)))
      (fun t => (lit t [(61, 31), (62, 31), (63, 31), (0, 31), (0, 0)], t.getV 0xF#4)) =
      some ([false, true, true, false, false], 0x00#8) := by decide
/-- V28: the anchor is read from VF before a collision writes it. -/
theorem test_V28_drw_anchor_from_vf :
    after (step (((storeBytes 0x300 [0x80#8]
        (((at_ 0x200#16 0xDF11).setV 0xF#4 0x05#8).setI 0x300#16)).setPixel 5 0 true)))
      (fun t => (t.pixel 5 0, t.getV 0xF#4)) = some (false, 0x01#8) := by decide

theorem test_V101_ld_vx_dt :
    after (step ((at_ 0x200#16 0xFB07).setDT 0x2A#8)) (fun t => (t.getV 0xB#4, t.DT)) =
      some (0x2A#8, 0x2A#8) := by decide
theorem test_V100_ld_dt_vx :
    after (step ((at_ 0x200#16 0xFA15).setV 0xA#4 0x2A#8)) (fun t => (t.DT, t.timerRunning)) =
      some (0x2A#8, false) := by decide
theorem test_V102_ticks_hold_at_zero :
    (List.range 4).map (fun k => (ticks k { State.reset.setDT 0x02#8 with timerRunning := true }).DT) =
      [0x02#8, 0x01#8, 0x00#8, 0x00#8] := by decide

/-! ### The cycle and the host port -/

theorem test_V3_fetch_faults_in_its_second_byte :
    faultAt (step (State.reset.setPc 0xFFF#16)) = some (.addressOutOfRange 0x1000, 0xFFF#16) := by
  decide
theorem test_V7_illegal_word :
    faultAt (step (at_ 0x200#16 0x9000)) = some (.opcodeNotSupported 0x9000#16, 0x202#16) := by decide
/-- V8, V119: refused while the fault is set, `reset()` included. -/
theorem test_V119_reset_keeps_the_fault :
    step (transact .reset { State.reset with
      pc := 0x202#16, fault := some (.opcodeNotSupported 0x9000#16) }).1 =
      .refused (.faultPending (.opcodeNotSupported 0x9000#16)) := by
  rfl
theorem test_V9_decode_port_pushes_the_current_pc :
    (transact (.decode 0x2300#16) State.reset).1.S = [0x200#16] ∧
    (transact (.decode 0x2300#16) State.reset).2 = .ok := by decide
theorem test_V110_message :
    opcodeMessage 0x9000#16 = "0x9000".toList ∧ opcodeMessage 0xE0A1#16 = "0xE0A1".toList := by decide
theorem test_V33_display_str :
    (transact .displayStr ((tiny.setPixel 0 0 true).setPixel 3 1 true)).2 =
      .text "X   \n   X\n".toList := by decide
theorem test_V112_load_rom_empty :
    transact (.loadRom []) State.reset = (State.reset, .truth false) := by decide
theorem test_V114_load_rom :
    (transact (.loadRom [0x60#8, 0x3F#8]) State.reset).1.M = [(0x200, 0x60#8), (0x201, 0x3F#8)] := by
  decide
theorem test_V115_get_v_16 :
    transact (.getV 16) State.reset = (State.reset, .error (.invalidRegister 16)) := by decide
theorem test_V116_get_memory_byte :
    (transact (.getMemoryByte 0x1000) State.reset).2 = .error (.addressOutOfRange 0x1000) := by decide
theorem test_V117_set_pixel :
    (transact (.setPixel 64 0 true) State.reset).2 = .error (.pixelOutOfRange 64 0) := by decide
theorem test_write_zero_unlists :
    ((State.reset.writeByte 0x300 0x07#8).writeByte 0x300 0x00#8).M = [] := by decide
theorem test_fault_codes :
    (FaultRecord.opcodeNotSupported 0#16).code = 1 ∧ (FaultRecord.addressOutOfRange 0).code = 2 ∧
    FaultRecord.callStackUnderflow.code = 3 ∧ FaultRecord.callStackOverflow.code = 4 := by decide

/-! ### Witnesses: concrete states and operands that meet the hypotheses of each statement -/

theorem witness_RetPopsOrUnderflows :
    ({ State.reset with S := [0x202#16] } : State).S = [] ++ [0x202#16] ∧ State.reset.S = [] := by
  decide

/-- A self-loop at 0x250, at the lowest address and at the highest one a jump reaches. -/
theorem witness_JpLoadsPc :
    (∀ a ∈ [(0x250, 0x1250), (0x000, 0x1000), (0xFFE, 0x1FFE)],
      (at_ (BitVec.ofNat 16 a.1) a.2).fault = none ∧
      (at_ (BitVec.ofNat 16 a.1) a.2).pc.toNat = a.1) ∧
    fetch (at_ 0xFFE#16 0x1FFE) = .ok (0x1000#16 ||| (0xFFE#12).setWidth 16) := ⟨by decide, by rfl⟩

/-- Unbounded, bounded with room, and bounded and full. -/
theorem witness_CallPushesOrOverflows :
    State.reset.params.stackDepth ≠ some State.reset.S.length ∧
    tiny.params.stackDepth ≠ some tiny.S.length ∧
    ({ tiny with S := [0x202#16] } : State).params.stackDepth = some 1 := by decide

/-- Equal, not equal, and a skip that carries pc to MEM_SIZE. -/
theorem witness_SeSkipsOnEquality :
    (State.reset.setV 0x3#4 0x42#8).getV 0x3#4 = 0x42#8 ∧ State.reset.getV 0x3#4 ≠ 0x42#8 ∧
    after (exec (.se 0x3#4 0x00#8) (State.reset.setPc 0xFFE#16)) (·.pc.toNat) =
      some State.reset.params.memSize := by decide

theorem witness_AndMasksItsRegister :
    (0x1#4 : Nibble) = 0x1#4 ∧ (0x1#4 : Nibble) ≠ 0x2#4 ∧ (0x1#4 : Nibble) ≠ 0xF#4 := by decide

/-- A machine whose 2-bit generator is given whole: four states, two seeds. -/
def seeded : State :=
  { tiny with
    params := { tinyParams with
      seedCount := some 2
      rngNext := some
        { name := 1
          nextRows := [(0, (0x11#8, 1)), (1, (0x22#8, 2)), (2, (0x33#8, 3)), (3, (0x44#8, 0))]
          seedRows := [(0, 0), (1, 3)] } } }

theorem seeded_inv : seeded.Inv := inv_of_legal (by decide)

/-- RNG_NEXT as an argument: the bytes after seed 1 are those its rows give (43_alu.md R116). -/
theorem test_rnd_with_a_given_generator :
    after (exec (.rnd 0x0#4 0xFF#8) (transact (.setSeed 1) seeded).1)
      (fun t => (t.getV 0x0#4, t.rng)) = some (0x44#8, 0) := by decide

/-- Draws by default, and a generator given whole with a seed of its type. -/
theorem witness_RandomBytesAreFreshDrawsOrTheGenerators :
    State.reset.params.rngNext = none ∧
    ∃ g, seeded.params.rngNext = some g ∧ seedAccepted seeded.params 1 = true ∧
      g.seedRows.lookup 1 = some 3 ∧ g.nextRows.lookup 3 = some (0x44#8, 0) ∧
      g.nextRows.lookup 0 = some (0x11#8, 1) :=
  ⟨rfl, _, rfl, rfl, rfl, rfl, rfl⟩

/-- The last value of the seed type, the first outside it, and a type with no bound. -/
theorem witness_SetSeedReplacesTheGeneratorState :
    (∀ n, seeded.params.seedCount = some n → 1 < n) ∧ seeded.params.seedCount = some 2 ∧ 2 ≤ 2 ∧
    (∀ n, State.reset.params.seedCount = some n → 1 < n) := by
  refine ⟨?_, rfl, by decide, fun n h => by cases h⟩
  rintro n ⟨rfl⟩
  decide

/-- The first and the last I at which FX33 completes. -/
theorem witness_LdBStoresTheDigits :
    State.reset.Inv ∧ State.reset.I.toNat + 2 < State.reset.params.memSize ∧
    (State.reset.setI 0xFFD#16).Inv ∧
    (State.reset.setI 0xFFD#16).I.toNat + 2 < State.reset.params.memSize :=
  ⟨reset_inv, by decide, inv_of_legal (by decide), by decide⟩

/-- The last I at which FX65 completes, for X = 0 and for X = F. -/
theorem witness_LdVxILoadsTheBlock :
    (State.reset.setI 0xFFF#16).I.toNat + (0x0#4).toNat < State.reset.params.memSize ∧
    (State.reset.setI 0xFF0#16).I.toNat + (0xF#4).toNat < State.reset.params.memSize := by decide

/-- The first I at which each faults, and one far outside memory. -/
theorem witness_BlockAccessesFaultAtTheLowestAddress :
    State.reset.params.memSize ≤ (State.reset.setI 0xFFE#16).I.toNat + 2 ∧
    State.reset.params.memSize ≤ (State.reset.setI 0xFF1#16).I.toNat + (0xF#4).toNat ∧
    State.reset.params.memSize ≤ (State.reset.setI 0xFFFF#16).I.toNat + (0x0#4).toNat := by decide

/-- V26's state: (0,0) off, (1,0) on, a sprite byte 0xC0 at 0x300. -/
def collisionState : State :=
  (storeBytes 0x300 [0xC0#8] (State.reset.setI 0x300#16)).setPixel 1 0 true

/-- A draw that reads nothing with I past memory (V21), a draw whose rows end at the last byte of
memory (V24), and a draw with a collision and a pixel turned on (V26). -/
theorem witness_DrwMeetsItsClosedForm :
    (State.reset.setI 0xFFFF#16).Inv ∧ min (0x0#4).toNat (32 - 0) = 0 ∧
    ((State.reset.setV 0x1#4 0x1E#8).setI 0xFFE#16).Inv ∧ min (0x4#4).toNat (32 - 30) = 2 ∧
    ((State.reset.setV 0x1#4 0x1E#8).setI 0xFFE#16).I.toNat + 2 ≤ State.reset.params.memSize ∧
    collisionState.Inv ∧ collisionState.pixel 1 0 = true ∧
    (collisionState.readByte (collisionState.I.toNat + (0 - 0))).getLsbD (7 - (1 - 0)) = true ∧
    collisionState.pixel 0 0 = false :=
  ⟨inv_of_legal (by decide), by decide, inv_of_legal (by decide), by decide, by decide,
    inv_of_legal (by decide), by decide, by decide, by decide⟩

/-- V25: the second row lies past memory. -/
theorem witness_DrwFaultsBeforeAnyWrite :
    min (0x2#4).toNat (32 - (State.reset.getV 0x1#4).toNat % 32) = 2 ∧
    State.reset.params.memSize < (State.reset.setI 0xFFF#16).I.toNat + 2 := by decide

/-- A draw with a collision, and one without. -/
theorem witness_VFRecordsACollisionAndIsNeverCleared :
    (∃ t, collisionState.Inv ∧ exec (.drw 0x0#4 0x1#4 0x1#4) collisionState = .next t ∧
      collisionState.pixel 1 0 = true ∧ t.pixel 1 0 = false) ∧
    (∃ t, State.reset.Inv ∧ exec (.drw 0x0#4 0x1#4 0x0#4) State.reset = .next t ∧
      ∀ px py, State.reset.pixel px py = true → t.pixel px py = true) :=
  ⟨⟨drawRows 0 0 1 collisionState, inv_of_legal (by decide), by rfl, by decide, by decide⟩,
    ⟨State.reset, reset_inv, by rfl, fun _ _ h => h⟩⟩

/-- V26 and then V31: the anchors are those of the first draw, and it turned (0,0) on; and a draw of
no rows, which turned nothing on. -/
theorem witness_DrwTwiceRestoresTheDisplay :
    (∃ t, collisionState.Inv ∧ exec (.drw 0x0#4 0x1#4 0x1#4) collisionState = .next t ∧
      (t.getV 0x0#4).toNat % 64 = (collisionState.getV 0x0#4).toNat % 64 ∧
      (t.getV 0x1#4).toNat % 32 = (collisionState.getV 0x1#4).toNat % 32 ∧
      collisionState.pixel 0 0 = false ∧ t.pixel 0 0 = true) ∧
    (∃ t, State.reset.Inv ∧ exec (.drw 0x0#4 0x1#4 0x0#4) State.reset = .next t ∧
      ∀ px py, State.reset.pixel px py = false → t.pixel px py = false) :=
  ⟨⟨drawRows 0 0 1 collisionState, inv_of_legal (by decide), by rfl, by decide, by decide, by decide,
    by decide⟩, ⟨State.reset, reset_inv, by rfl, fun _ _ h => h⟩⟩

theorem witness_RetUndoesCall :
    ∃ t : State, exec (.call 0x300#12) State.reset = .next t ∧ (t.setV 0x0#4 0x01#8).S = t.S :=
  ⟨_, by rfl, rfl⟩

theorem witness_DecodeOfEncodeIsTheInstruction :
    (Instr.drw 0xF#4 0x0#4 0xF#4).wellFormed = true := by decide

theorem witness_EncodeOfDecodeIsTheWord : decode 0xFF65#16 = .instr (.ldVxI 0xF#4) := by decide

/-- A word with a row, and one with none. -/
theorem witness_ExactlyOneRowMatchesOrNone :
    (∃ r ∈ opcodeTable, 0x8122#16 &&& r.mask = r.pattern) ∧
    ∀ r ∈ opcodeTable, 0x9000#16 &&& r.mask ≠ r.pattern := by decide

theorem witness_IllegalWordsRaiseOpcodeNotSupported :
    (at_ 0x200#16 0x9000).fault = none ∧ fetch (at_ 0x200#16 0x9000) = .ok 0x9000#16 ∧
    decode 0x9000#16 = .opcodeNotSupported 0x9000#16 := ⟨by decide, by rfl, by decide⟩

/-- The last whole word, the last byte, and the first address past memory. -/
theorem witness_FetchIsBigEndianAndChecked :
    (State.reset.setPc 0xFFE#16).pc.toNat + 1 < State.reset.params.memSize ∧
    (State.reset.setPc 0xFFF#16).pc.toNat + 1 = State.reset.params.memSize ∧
    State.reset.params.memSize ≤ (State.reset.setPc 0x1000#16).pc.toNat := by decide

theorem witness_FetchFaultLeavesPc :
    State.reset.fault = none ∧
    (State.reset.setPc 0xFFF#16).pc.toNat + 1 = State.reset.params.memSize ∧
    State.reset.params.memSize ≤ (State.reset.setPc 0xFFFF#16).pc.toNat := by decide

/-- The timer task stopped, and running. -/
theorem witness_StepRunsTheDecodedInstruction :
    (at_ 0x200#16 0x603F).fault = none ∧
    (at_ 0x200#16 0x603F).pc.toNat + 1 < (at_ 0x200#16 0x603F).params.memSize ∧
    decodeBytes [(at_ 0x200#16 0x603F).readByte 0x200, (at_ 0x200#16 0x603F).readByte 0x201] =
      .instr (.ldImm 0x0#4 0x3F#8) [] ∧
    (at_ 0x200#16 0x603F).timerRunning = false ∧
    (setTimer true (at_ 0x200#16 0x603F)).timerRunning = true := by decide

theorem witness_StoredFetchWordIsRun :
    State.reset.Inv ∧ State.reset.fault = none ∧ State.reset.timerRunning = false ∧
    State.reset.pc.toNat + 1 < State.reset.params.memSize := ⟨reset_inv, by decide⟩

/-- A cycle that completes, one that faults after its fetch, one whose fetch faults. -/
theorem witness_PcFollowsItsTable :
    (∃ t, fetch (at_ 0x200#16 0x603F) = .ok 0x603F#16 ∧
      decode 0x603F#16 = .instr (.ldImm 0x0#4 0x3F#8) ∧ advance (at_ 0x200#16 0x603F) = .next t) ∧
    (∃ f, fetch (at_ 0x200#16 0x00EE) = .ok 0x00EE#16 ∧ advance (at_ 0x200#16 0x00EE) = .fault f) ∧
    (∃ f, fetch (State.reset.setPc 0xFFFF#16) = .error 0xFFFF ∧
      advance (State.reset.setPc 0xFFFF#16) = .fault f) :=
  ⟨⟨_, by rfl, by decide, by rfl⟩, ⟨_, by rfl, by rfl⟩, ⟨_, by rfl, by rfl⟩⟩

/-- A self-loop with the timer task stopped. -/
theorem witness_SelfLoopChangesOnlyTheTimer :
    (at_ 0x250#16 0x1250).fault = none ∧ (at_ 0x250#16 0x1250).selfLoop = true ∧
    (at_ 0x250#16 0x1250).timerRunning = false := by decide

theorem witness_FaultIsStickyAndGates :
    (State.reset.recordFault (.opcodeNotSupported 0x9000#16)).fault =
      some (.opcodeNotSupported 0x9000#16) := by decide

theorem witness_FaultsArePrecise :
    State.reset.fault = none ∧
    (∃ f, fetch (State.reset.setPc 0xFFFF#16) = .error 0xFFFF ∧
      advance (State.reset.setPc 0xFFFF#16) = .fault f) ∧
    (∃ f, fetch (at_ 0x200#16 0x00EE) = .ok 0x00EE#16 ∧ advance (at_ 0x200#16 0x00EE) = .fault f) ∧
    (∃ t, transact (.decode 0x00EE#16) State.reset = (t, .faulted .callStackUnderflow)) :=
  ⟨by decide, ⟨_, by rfl, by rfl⟩, ⟨_, by rfl, by rfl⟩, ⟨_, by rfl⟩⟩

/-- One fault of each kind an instruction raises, one at the fetch and one of an illegal word. -/
theorem witness_EachInstructionFaultsOnlyAsTabled :
    (∃ f, exec .ret State.reset = .fault f) ∧
    (∃ f, exec (.call 0x300#12) { tiny with S := [0x202#16] } = .fault f) ∧
    (∃ f, exec (.drw 0x0#4 0x0#4 0x1#4) (State.reset.setI 0x1000#16) = .fault f) ∧
    (∃ f, exec (.ldBVx 0x0#4) (State.reset.setI 0xFFE#16) = .fault f) ∧
    (∃ f, exec (.ldVxI 0x0#4) (State.reset.setI 0x1000#16) = .fault f) ∧
    (∃ f, advance (State.reset.setPc 0xFFFF#16) = .fault f ∧
      fetch (State.reset.setPc 0xFFFF#16) = .error 0xFFFF) ∧
    (∃ f, advance (at_ 0x200#16 0x9000) = .fault f ∧ fetch (at_ 0x200#16 0x9000) = .ok 0x9000#16 ∧
      decode 0x9000#16 = .opcodeNotSupported 0x9000#16) :=
  ⟨⟨_, by rfl⟩, ⟨_, by rfl⟩, ⟨_, by rfl⟩, ⟨_, by rfl⟩, ⟨_, by rfl⟩, ⟨_, by rfl, by rfl⟩,
    ⟨_, by rfl, by rfl, by decide⟩⟩

theorem witness_ConstructionAndResetAreLegal :
    Params.standard.wf = true ∧ tinyParams.wf = true := by decide

theorem witness_StepKeepsTheStateLegal :
    ∃ t, (at_ 0x200#16 0xF033).Inv ∧ step (at_ 0x200#16 0xF033) = .next t :=
  ⟨_, inv_of_legal (by decide), by rfl⟩

theorem witness_HostAndTimerKeepTheStateLegal : tiny.Inv ∧ State.reset.Inv := ⟨tiny_inv, reset_inv⟩

theorem witness_OnlyBcdWritesMemory :
    ∃ t, exec (.ldVxI 0x0#4) State.reset = .next t ∧ ∀ x, Instr.ldVxI 0x0#4 ≠ .ldBVx x :=
  ⟨_, by rfl, by decide⟩

theorem witness_DisplayAndStackHaveTheirOwnInstructions :
    ∃ t, exec (.ldBVx 0x0#4) State.reset = .next t ∧ writesDisplay (.ldBVx 0x0#4) = false ∧
      writesStack (.ldBVx 0x0#4) = false := ⟨_, by rfl, by decide⟩

theorem witness_IndexIsWrittenOnlyByItsInstructions :
    (∃ t, exec (.ldVxI 0x0#4) State.reset = .next t ∧ writesIndex (.ldVxI 0x0#4) = false) ∧
    (∃ t, exec (.ldI 0xFFF#12) State.reset = .next t) ∧
    (∃ t, exec (.ldFVx 0x0#4) State.reset = .next t) ∧
    (State.reset.setI 0x0FFF#16).I.toNat ≤ 0x0FFF ∧ (∀ w, HostCall.advance ≠ .setI w) :=
  ⟨⟨_, by rfl, by decide⟩, ⟨_, by rfl⟩, ⟨_, by rfl⟩, by decide, fun _ h => by cases h⟩

theorem witness_TimerIsWrittenOnlyByFX15AndTicks :
    (∃ t, exec (.ldVxDt 0x0#4) State.reset = .next t ∧ writesTimer (.ldVxDt 0x0#4) = false) ∧
    (∃ t, exec (.ldDtVx 0x0#4) State.reset = .next t) ∧ HostCall.timerStop.executes = false :=
  ⟨⟨_, by rfl, by decide⟩, ⟨_, by rfl⟩, by decide⟩

theorem witness_VRegistersAreWrittenOnlyAsTabled :
    ∃ t, exec (.drw 0x0#4 0x1#4 0x1#4) collisionState = .next t :=
  ⟨drawRows 0 0 1 collisionState, by rfl⟩

/-- Two states that differ in VF alone, which this draw does not read. -/
theorem witness_VRegistersAreReadOnlyAsTabled :
    ∃ t, collisionState.setV 0xF#4 0x05#8 =
        { collisionState with V := (collisionState.setV 0xF#4 0x05#8).V } ∧
      (∀ r, readsV (.drw 0x0#4 0x1#4 0x1#4) r →
        (collisionState.setV 0xF#4 0x05#8).getV r = collisionState.getV r) ∧
      exec (.drw 0x0#4 0x1#4 0x1#4) collisionState = .next t := by
  refine ⟨drawRows 0 0 1 collisionState, rfl, ?_, by rfl⟩
  rintro r (rfl | rfl) <;> rfl

/-- The next fetch at I, and at I + 1. -/
theorem witness_StoredDigitsAreFetched :
    ∃ t : State, State.reset.Inv ∧ exec (.ldBVx 0x0#4) State.reset = .next t ∧
      (t.setPc State.reset.I).M = t.M ∧ (t.setPc State.reset.I).params = t.params ∧
      (t.setPc State.reset.I).pc = State.reset.I ∧
      (t.setPc 0x0001#16).pc.toNat = State.reset.I.toNat + 1 :=
  ⟨_, reset_inv, by rfl, rfl, rfl, rfl, rfl⟩

/-- DT at 0, where a tick holds it, and at its largest value. -/
theorem witness_TicksCountDownAndHoldAtZero :
    (setTimer true (State.reset.setDT 0x00#8)).timerRunning = true ∧
    (setTimer true (State.reset.setDT 0xFF#8)).timerRunning = true ∧
    State.reset.timerRunning = false := by decide

theorem witness_ResetSetsOnlyPc : State.reset.Inv ∧ tiny.Inv := ⟨reset_inv, tiny_inv⟩

/-- The smallest memory a first fetch fits in; V111's load, and the lowest image that lies past the
fetched bytes. -/
theorem witness_AdvanceBeforeResetFaults :
    2 ≤ ({ Params.standard with memSize := 2, romStart := 1 } : Params).memSize ∧
    2 ≤ Params.standard.romStart ∧
    (transact (.loadRom [0x60#8, 0x01#8]) (State.construct Params.standard Launch.zero)).2
      = .truth true ∧
    2 ≤ ({ Params.standard with memSize := 3, romStart := 2 } : Params).romStart := by decide

/-- V111: the loaded image is not what an unreset core fetches. -/
theorem test_V111_no_reset :
    faultAt (step (transact (.loadRom [0x60#8, 0x01#8])
      (State.construct Params.standard Launch.zero)).1) =
      some (.opcodeNotSupported 0x0000#16, 0x0002#16) := by decide

/-- An empty image, one byte too many, and an image that fits exactly. -/
theorem witness_LoadRomCopiesTheImage :
    tiny.Inv ∧ tiny.params.memSize < tiny.params.romStart + (List.replicate 9 0x01#8).length ∧
    imageFits tiny.params (List.replicate 8 0x01#8) = true := ⟨tiny_inv, by decide, by decide⟩

theorem witness_MemoryPortReadsAndWrites :
    State.reset.Inv ∧ 0xFFF < State.reset.params.memSize ∧ State.reset.params.memSize ≤ 0x1000 :=
  ⟨reset_inv, by decide⟩

theorem witness_GetRamCopiesMemory :
    0xFFF < State.reset.params.memSize ∧ State.reset.params.romStart + 0xDFF < State.reset.params.memSize := by
  decide

theorem witness_RegisterPortChecksItsIndex :
    (16 : Nat) ≤ 16 ∧ 15 = (0xF#4).toNat ∧ HostCall.advance.executes = true := by decide

theorem witness_PixelPortReadsAndWrites :
    State.reset.Inv ∧ (63 < State.reset.params.width ∧ 31 < State.reset.params.height) ∧
    ¬ (64 < State.reset.params.width ∧ 0 < State.reset.params.height) := ⟨reset_inv, by decide⟩

/-- V9 and V10: CALL and a taken skip through the decode port. -/
theorem witness_DecodePortDoesNotAdvancePc :
    (∃ t, State.reset.fault = none ∧ decode 0x2300#16 = .instr (.call 0x300#12) ∧
      transact (.decode 0x2300#16) State.reset = (t, .ok)) ∧
    (∃ t, decode 0x3000#16 = .instr (.se 0x0#4 0x00#8) ∧
      transact (.decode 0x3000#16) State.reset = (t, .ok)) ∧
    (∃ t, decode 0xA123#16 = .instr (.ldI 0x123#12) ∧
      transact (.decode 0xA123#16) State.reset = (t, .ok)) :=
  ⟨⟨_, by decide, by decide, by rfl⟩, ⟨_, by decide, by rfl⟩, ⟨_, by decide, by rfl⟩⟩

theorem witness_DisplayStrShowsEveryPixel :
    tiny.Inv ∧ 1 < tiny.params.height ∧ 3 < tiny.params.width := ⟨tiny_inv, by decide⟩

theorem witness_ErrorResponsesChangeNoState :
    (transact (.getV 16) State.reset).2 = .error (.invalidRegister 16) ∧
    (transact .advance (State.reset.recordFault .callStackUnderflow)).2 = .refused ∧
    fetch (at_ 0x200#16 0x603F) = .ok 0x603F#16 ∧
    fetch (State.reset.setPc 0x1000#16) = .error 0x1000 :=
  ⟨by decide, by rfl, by rfl, by rfl⟩

end Sys2Proof.Tests
end

section
/-! What `exec` can do and what a host transaction can leave, said once, and the two
statements of 10_state.md about pc (R28) and I (R25) derived from it. -/

namespace Sys2Proof.Machine

/-! ### An instruction that completes -/

/-- `Completes s i t`: the instruction `i`, executed in `s`, meets its guard and leaves `t`
(40_cycle.md R83). It is `exec i s = .next t` as cases (`exec_eq_next_iff`). -/
inductive Completes (s : State) : Instr → State → Prop
  | cls : Completes s .cls s.clearDisplay
  | ret (a : Word) (top : s.top? = some a) : Completes s .ret (s.pop.setPc a)
  | jp (nnn : Addr12) : Completes s (.jp nnn) (s.setPc (targetOf nnn))
  | call (nnn : Addr12) (room : s.stackFull = false) :
      Completes s (.call nnn) ((s.push s.pc).setPc (targetOf nnn))
  | seTaken (x : Nibble) (nn : Byte) (equal : s.getV x = nn) : Completes s (.se x nn) s.advancePc
  | seNotTaken (x : Nibble) (nn : Byte) (differ : s.getV x ≠ nn) : Completes s (.se x nn) s
  | ldImm (x : Nibble) (nn : Byte) : Completes s (.ldImm x nn) (s.setV x nn)
  | addImm (x : Nibble) (nn : Byte) : Completes s (.addImm x nn) (s.setV x (s.getV x + nn))
  | andReg (x y : Nibble) : Completes s (.andReg x y) (s.setV x (s.getV x &&& s.getV y))
  | ldI (nnn : Addr12) : Completes s (.ldI nnn) (s.setI (targetOf nnn))
  | rnd (x : Nibble) (nn : Byte) :
      Completes s (.rnd x nn) (s.afterRandomByte.setV x (randomByte s &&& nn))
  | drw (x y n : Nibble) (x0 y0 rows : Nat) (column : x0 = anchor (s.getV x) s.params.width)
      (line : y0 = anchor (s.getV y) s.params.height)
      (onScreen : rows = visibleRows n s.params.height y0) (inRange : outOfRange s rows = none) :
      Completes s (.drw x y n) (drawRows x0 y0 rows s)
  | ldVxDt (x : Nibble) : Completes s (.ldVxDt x) (s.setV x s.DT)
  | ldDtVx (x : Nibble) : Completes s (.ldDtVx x) (s.setDT (s.getV x))
  | ldFVx (x : Nibble) : Completes s (.ldFVx x) (s.setI (zextByte (s.getV x)))
  | ldBVx (x : Nibble) (inRange : outOfRange s 3 = none) :
      Completes s (.ldBVx x) (storeBytes (effectiveAddress s.I 0)
        [hundredsDigit (s.getV x), tensDigit (s.getV x), onesDigit (s.getV x)] s)
  | ldVxI (x : Nibble) (inRange : outOfRange s (x.toNat + 1) = none) :
      Completes s (.ldVxI x) (loadRegisters (x.toNat + 1) s)

theorem completes_of_exec {i : Instr} {s t : State} (h : exec i s = .next t) :
    Completes s i t := by
  cases i
  case ret =>
    obtain ⟨a, htop, rfl⟩ := execRet_next h
    exact .ret a htop
  case call nnn =>
    obtain ⟨hroom, rfl⟩ := execCall_next h
    exact .call nnn hroom
  case se x nn =>
    by_cases hv : s.getV x = nn
    · cases (execSe_taken hv).symm.trans h
      exact .seTaken x nn hv
    · cases (execSe_not_taken hv).symm.trans h
      exact .seNotTaken x nn hv
  case drw x y n =>
    obtain ⟨x0, y0, rows, hx, hy, hrows, hrange, rfl⟩ := execDrw_next h
    exact .drw x y n x0 y0 rows hx hy hrows hrange
  case ldBVx x =>
    obtain ⟨hrange, rfl⟩ := execLdBVx_next h
    exact .ldBVx x hrange
  case ldVxI x =>
    obtain ⟨hrange, rfl⟩ := execLdVxI_next h
    exact .ldVxI x hrange
  all_goals
    cases h
    constructor

theorem exec_of_completes {i : Instr} {s t : State} (h : Completes s i t) :
    exec i s = .next t := by
  cases h
  case ret a htop => simp only [exec, execRet, htop]
  case call nnn hroom => simp [exec, execCall, hroom]
  case seTaken x nn hv => exact execSe_taken hv
  case seNotTaken x nn hv => exact execSe_not_taken hv
  case drw x y n x0 y0 rows hx hy hrows hrange =>
    subst hx hy hrows
    simp only [exec, execDrw, hrange]
  case ldBVx x hrange => simp only [exec, execLdBVx, hrange]
  case ldVxI x hrange => simp only [exec, execLdVxI, hrange]
  all_goals rfl

/-- `Completes` is exactly the completion of `exec`. -/
theorem exec_eq_next_iff {i : Instr} {s t : State} : exec i s = .next t ↔ Completes s i t :=
  ⟨completes_of_exec, exec_of_completes⟩

/-! ### A cycle that faults -/

/-- A faulting cycle only records the fault, at the fetched address when the fetch faults and with
pc past it otherwise (40_cycle.md R81, R82; 60_exceptions.md R150). -/
theorem advance_fault {s : State} {f : Fault} (h : advance s = .fault f) :
    (∃ a, fetch s = .error a ∧ f.after = s.recordFault f.record) ∨
    (∃ op, fetch s = .ok op ∧ f.after = s.advancePc.recordFault f.record) := by
  rcases advance_cases s with ⟨r, _, hr⟩ | ⟨a, _, hfetch, hr⟩ | ⟨op, _, hfetch, _, hr⟩ |
    ⟨op, i, _, hfetch, _, hr⟩
  · cases hr.symm.trans h
  · have hf := raise_eq_fault_iff.mp (hr.symm.trans h)
    exact .inl ⟨a, hfetch, by rw [hf, Fault.after_of, Fault.record_of]⟩
  · have hf := raise_eq_fault_iff.mp (hr.symm.trans h)
    exact .inr ⟨op, hfetch, by rw [hf, Fault.after_of, Fault.record_of]⟩
  · exact .inr ⟨op, hfetch, exec_fault_after (hr.symm.trans h)⟩

/-! ### pc (10_state.md R28) -/

@[simp] theorem loadRegisters_pc (n : Nat) (s : State) : (loadRegisters n s).pc = s.pc := by
  rw [loadRegisters_eq]

/-- R28's table, from the address of the instruction, which executes with pc past it. -/
theorem Completes.pc {s t : State} {i : Instr} (h : Completes s.advancePc i t) :
    some t.pc = pcAfter s i := by
  cases h
  case ret a htop => exact htop.symm
  case seTaken x nn hv =>
    rw [State.getV_advancePc] at hv
    simp [pcAfter, hv, BitVec.add_assoc]
  case seNotTaken x nn hv =>
    rw [State.getV_advancePc] at hv
    simp [pcAfter, hv]
  all_goals simp [pcAfter]

/-- Settles O32: a completing cycle by `Completes`, a faulting one by `advance_fault`. -/
theorem pcFollowsItsTable : Obligations.PcFollowsItsTable := by
  intro s
  refine ⟨fun op i t hfetch hdec h => ?_, fun op f hfetch h => ?_, fun a f hfetch h => ?_⟩
  · obtain ⟨op', i', -, hfetch', hdec', hexec⟩ := advance_next h
    cases hfetch'.symm.trans hfetch
    cases hdec'.symm.trans hdec
    exact ⟨hexec, (completes_of_exec hexec).pc⟩
  · rcases advance_fault h with ⟨a, ha, -⟩ | ⟨_, -, hafter⟩
    · cases ha.symm.trans hfetch
    · rw [hafter, State.recordFault_pc, State.advancePc_pc]
  · rcases advance_fault h with ⟨_, -, hafter⟩ | ⟨op, hop, -⟩
    · rw [hafter, State.recordFault_pc]
    · cases hop.symm.trans hfetch

/-! ### What a host transaction leaves -/

/-- `Leaves s c t`: the transaction `c` may leave `t` (60_exceptions.md R159 to R171). A transaction
that only answers, and one that is refused or answers an error, leaves `s` itself. -/
inductive Leaves (s : State) : HostCall → State → Prop
  | unchanged (c : HostCall) : Leaves s c s
  | loadRom (bytes : List Byte) (fits : s.params.romStart + bytes.length ≤ s.params.memSize) :
      Leaves s (.loadRom bytes) (storeBytes s.params.romStart bytes s)
  | reset : Leaves s .reset (resetPc s)
  | setMemoryByte (a : Nat) (v : Byte) (inRange : a < s.params.memSize) :
      Leaves s (.setMemoryByte a v) (s.writeByte a v)
  | setV (n : Nat) (v : Byte) (r : Nibble) (index : registerOfIndex n = some r) :
      Leaves s (.setV n v) (s.setV r v)
  | setFlag (v : Byte) : Leaves s (.setFlag v) (s.setV flagRegister v)
  | setI (w : Word) : Leaves s (.setI w) (s.setI w)
  | setPc (w : Word) : Leaves s (.setPc w) (s.setPc w)
  | setPixel (x y : Nat) (b : Bool) (onScreen : s.onScreen x y = true) :
      Leaves s (.setPixel x y b) (s.setPixel x y b)
  | clearScreen : Leaves s .clearScreen s.clearDisplay
  | advanceNext (t : State) (completes : advance s = .next t) : Leaves s .advance t
  | advanceFault (f : Fault) (faults : advance s = .fault f) : Leaves s .advance f.after
  | decodeNext (op : Word) (t : State) (noFault : s.fault = none)
      (completes : execute op s = .next t) : Leaves s (.decode op) t
  | decodeFault (op : Word) (f : Fault) (noFault : s.fault = none)
      (faults : execute op s = .fault f) : Leaves s (.decode op) f.after
  | setSeed (seed : Nat) (accepted : seedAccepted s.params seed = true) :
      Leaves s (.setSeed seed) (s.reseed seed)
  | timerStart : Leaves s .timerStart (setTimer true s)
  | timerStop : Leaves s .timerStop (setTimer false s)

theorem leaves_loadRom (bytes : List Byte) (s : State) :
    Leaves s (.loadRom bytes) (loadRom bytes s).1 := by
  unfold loadRom
  split
  · exact .unchanged _
  · split
    · exact .unchanged _
    · exact .loadRom bytes (by omega)

theorem leaves_advance (s : State) : Leaves s .advance (reportCycle s (advance s)).1 := by
  cases h : advance s with
  | next t => exact .advanceNext t h
  | fault f => exact .advanceFault f h
  | refused r => exact .unchanged _

theorem leaves_decode (op : Word) (s : State) :
    Leaves s (.decode op) (reportCycle s (gated (execute op) s)).1 := by
  cases hf : s.fault with
  | some r =>
    rw [gated_of_fault hf]
    exact .unchanged _
  | none =>
    rw [gated_of_no_fault hf]
    cases h : execute op s with
    | next t => exact .decodeNext op t hf h
    | fault f => exact .decodeFault op f hf h
    | refused r => exact .unchanged _

/-- What any transaction can do to the state, case by case. -/
theorem transact_leaves (c : HostCall) (s : State) : Leaves s c (transact c s).1 := by
  cases c
  case loadRom bytes => exact leaves_loadRom bytes s
  case reset => exact .reset
  case getMemoryByte a =>
    simp only [transact, hostGetByte]
    split <;> exact .unchanged _
  case setMemoryByte a v =>
    simp only [transact, hostSetByte]
    by_cases ha : a < s.params.memSize
    · rw [memWrite_ok v ha]
      exact .setMemoryByte a v ha
    · rw [memWrite_error v (by omega)]
      exact .unchanged _
  case getV n =>
    simp only [transact, hostGetV]
    split <;> exact .unchanged _
  case setV n v =>
    simp only [transact, hostSetV]
    split
    · exact .unchanged _
    · exact .setV n v _ ‹_›
  case setFlag v => exact .setFlag v
  case setI w => exact .setI w
  case setPc w => exact .setPc w
  case getPixel x y =>
    simp only [transact, hostGetPixel]
    split <;> exact .unchanged _
  case setPixel x y b =>
    simp only [transact, hostSetPixel]
    split
    · exact .setPixel x y b ‹_›
    · exact .unchanged _
  case clearScreen => exact .clearScreen
  case advance => exact leaves_advance s
  case fetchInstruction =>
    simp only [transact, hostFetch]
    split <;> exact .unchanged _
  case decode op => exact leaves_decode op s
  case setSeed seed =>
    simp only [transact, hostSetSeed]
    split
    · exact .setSeed seed ‹_›
    · exact .unchanged _
  case timerStart => exact .timerStart
  case timerStop => exact .timerStop
  all_goals exact .unchanged _

/-! ### I (10_state.md R25) -/

theorem targetOf_toNat (nnn : Addr12) : (targetOf nnn).toNat = nnn.toNat := by
  rw [targetOf, BitVec.toNat_setWidth]
  omega

theorem zextByte_toNat (b : Byte) : (zextByte b).toNat = b.toNat := by
  rw [zextByte, BitVec.toNat_setWidth]
  omega

/-- Only ANNN and FX29 write I. -/
theorem Completes.I_eq {s t : State} {i : Instr} (h : Completes s i t)
    (hi : writesIndex i = false) : t.I = s.I := by
  cases h
  case ldI => cases hi
  case ldFVx => cases hi
  all_goals simp

theorem Completes.I_of_ldI {s t : State} {nnn : Addr12} (h : Completes s (.ldI nnn) t) :
    t.I.toNat = nnn.toNat := by
  cases h
  rw [State.setI_I, targetOf_toNat]

theorem Completes.I_of_ldFVx {s t : State} {x : Nibble} (h : Completes s (.ldFVx x) t) :
    t.I.toNat = (s.getV x).toNat := by
  cases h
  rw [State.setI_I, zextByte_toNat]

/-- A completed instruction leaves I at most 0x0FFF, or as it found it. -/
theorem Completes.I_le {s t : State} {i : Instr} (h : Completes s i t)
    (hs : s.I.toNat ≤ 0x0FFF) : t.I.toNat ≤ 0x0FFF := by
  cases hi : writesIndex i with
  | false => rwa [h.I_eq hi]
  | true =>
    cases i
    case ldI nnn =>
      rw [h.I_of_ldI]
      omega
    case ldFVx x =>
      rw [h.I_of_ldFVx]
      omega
    all_goals cases hi

/-- No transaction but `set_i` brings I above 0x0FFF. -/
theorem Leaves.I_le {s t : State} {c : HostCall} (h : Leaves s c t) (hc : ∀ w, c ≠ .setI w)
    (hs : s.I.toNat ≤ 0x0FFF) : t.I.toNat ≤ 0x0FFF := by
  cases h
  case setI w => exact absurd rfl (hc w)
  case advanceNext h =>
    obtain ⟨op, i, -, -, -, hexec⟩ := advance_next h
    exact (completes_of_exec hexec).I_le hs
  case advanceFault f h =>
    rcases advance_fault h with ⟨_, -, hafter⟩ | ⟨_, -, hafter⟩
    · rwa [hafter]
    · rwa [hafter]
  case decodeNext op _ h =>
    obtain ⟨i, -, hexec⟩ := execute_next h
    exact (completes_of_exec hexec).I_le hs
  case decodeFault op f _ h => rwa [execute_fault_after h]
  case loadRom => rwa [storeBytes_I]
  all_goals exact hs

theorem tick_I (s : State) : (tick s).I = s.I := by rw [tick_eq]

/-- Settles O42: the instructions by the cases of `Completes`, the host by those of `Leaves`. -/
theorem indexIsWrittenOnlyByItsInstructions : Obligations.IndexIsWrittenOnlyByItsInstructions := by
  refine ⟨fun i s t hexec => ?_, fun _ _ => rfl, fun c s hs hc => ?_⟩
  · have h := completes_of_exec hexec
    refine ⟨h.I_eq, ?_, ?_⟩
    · rintro nnn rfl
      have hI := h.I_of_ldI
      exact ⟨hI, by omega⟩
    · rintro x rfl
      have hI := h.I_of_ldFVx
      exact ⟨hI, by omega⟩
  · exact ⟨(transact_leaves c s).I_le hc hs, tick_I s⟩

end Sys2Proof.Machine
end

section
/-! The decoder's equations by class and function field, and the opcode map of R67 as the rows it
decodes: the statements of 30_encoding.md R66 and R71. -/

namespace Sys2Proof

/-! ### The decoder's equations (30_encoding.md R66) -/

/-- The classes the decoder names, and the five it does not. -/
theorem class_cases (c : Nibble) :
    c = 0x0#4 ∨ c = 0x1#4 ∨ c = 0x2#4 ∨ c = 0x3#4 ∨ c = 0x6#4 ∨ c = 0x7#4 ∨ c = 0x8#4 ∨ c = 0xA#4 ∨
      c = 0xC#4 ∨ c = 0xD#4 ∨ c = 0xF#4 ∨ c ∈ [0x4#4, 0x5#4, 0x9#4, 0xB#4, 0xE#4] := by
  decide +revert

section Equations

variable {op : Word}

theorem decode_class0 (h : opClass op = 0x0#4) : decode op = decodeClass0 op := by
  simp [decode, h]

theorem decode_class1 (h : opClass op = 0x1#4) : decode op = .instr (.jp (opNNN op)) := by
  simp [decode, h]

theorem decode_class2 (h : opClass op = 0x2#4) : decode op = .instr (.call (opNNN op)) := by
  simp [decode, h]

theorem decode_class3 (h : opClass op = 0x3#4) : decode op = .instr (.se (opX op) (opNN op)) := by
  simp [decode, h]

theorem decode_class6 (h : opClass op = 0x6#4) :
    decode op = .instr (.ldImm (opX op) (opNN op)) := by
  simp [decode, h]

theorem decode_class7 (h : opClass op = 0x7#4) :
    decode op = .instr (.addImm (opX op) (opNN op)) := by
  simp [decode, h]

theorem decode_class8 (h : opClass op = 0x8#4) : decode op = decodeClass8 op := by
  simp [decode, h]

theorem decode_classA (h : opClass op = 0xA#4) : decode op = .instr (.ldI (opNNN op)) := by
  simp [decode, h]

theorem decode_classC (h : opClass op = 0xC#4) :
    decode op = .instr (.rnd (opX op) (opNN op)) := by
  simp [decode, h]

theorem decode_classD (h : opClass op = 0xD#4) :
    decode op = .instr (.drw (opX op) (opY op) (opN op)) := by
  simp [decode, h]

theorem decode_classF (h : opClass op = 0xF#4) : decode op = decodeClassF op := by
  simp [decode, h]

theorem decode_class_unnamed (h : opClass op ∈ [0x4#4, 0x5#4, 0x9#4, 0xB#4, 0xE#4]) :
    decode op = .opcodeNotSupported op := by
  simp only [List.mem_cons, List.not_mem_nil, or_false] at h
  rcases h with h | h | h | h | h <;> simp [decode, h]

theorem decode_8XY2 (h : opClass op = 0x8#4 ∧ opN op = 0x2#4) :
    decode op = .instr (.andReg (opX op) (opY op)) := by
  obtain ⟨hc, hn⟩ := h
  rw [decode_class8 hc, decodeClass8, if_pos hn]

theorem decode_FX07 (h : opClass op = 0xF#4 ∧ opNN op = 0x07#8) :
    decode op = .instr (.ldVxDt (opX op)) := by
  obtain ⟨hc, hlow⟩ := h
  simp [decode_classF hc, decodeClassF, hlow]

theorem decode_FX15 (h : opClass op = 0xF#4 ∧ opNN op = 0x15#8) :
    decode op = .instr (.ldDtVx (opX op)) := by
  obtain ⟨hc, hlow⟩ := h
  simp [decode_classF hc, decodeClassF, hlow]

theorem decode_FX29 (h : opClass op = 0xF#4 ∧ opNN op = 0x29#8) :
    decode op = .instr (.ldFVx (opX op)) := by
  obtain ⟨hc, hlow⟩ := h
  simp [decode_classF hc, decodeClassF, hlow]

theorem decode_FX33 (h : opClass op = 0xF#4 ∧ opNN op = 0x33#8) :
    decode op = .instr (.ldBVx (opX op)) := by
  obtain ⟨hc, hlow⟩ := h
  simp [decode_classF hc, decodeClassF, hlow]

theorem decode_FX65 (h : opClass op = 0xF#4 ∧ opNN op = 0x65#8) :
    decode op = .instr (.ldVxI (opX op)) := by
  obtain ⟨hc, hlow⟩ := h
  simp [decode_classF hc, decodeClassF, hlow]

end Equations

/-! ### The rows of the opcode map (30_encoding.md R67) -/

theorem opcodeRow_mem (i : Instr) : opcodeRow i ∈ opcodeTable := by
  cases i <;> simp [opcodeTable, opcodeRow]

/-- A word that matches a row decodes to an instruction of that row: the mask fixes the fields the
decoder dispatches on. -/
theorem decode_of_matches_row {op : Word} {r : OpcodeRow} (hr : r ∈ opcodeTable)
    (h : op &&& r.mask = r.pattern) : ∃ i, decode op = .instr i ∧ opcodeRow i = r := by
  simp only [opcodeTable, List.cons_append, List.nil_append, List.mem_cons, List.not_mem_nil,
    or_false] at hr
  rcases hr with rfl | rfl | rfl | rfl | rfl | rfl | rfl | rfl | rfl | rfl | rfl | rfl | rfl | rfl |
    rfl | rfl
  · obtain rfl := (mask_all op 0x00E0#16).mp h
    exact ⟨.cls, rfl, rfl⟩
  · obtain rfl := (mask_all op 0x00EE#16).mp h
    exact ⟨.ret, rfl, rfl⟩
  · exact ⟨_, decode_class1 ((mask_class op 0x1#4).mp h), rfl⟩
  · exact ⟨_, decode_class2 ((mask_class op 0x2#4).mp h), rfl⟩
  · exact ⟨_, decode_class3 ((mask_class op 0x3#4).mp h), rfl⟩
  · exact ⟨_, decode_class6 ((mask_class op 0x6#4).mp h), rfl⟩
  · exact ⟨_, decode_class7 ((mask_class op 0x7#4).mp h), rfl⟩
  · exact ⟨_, decode_8XY2 ((mask_low_nibble op 0x8#4 0x2#4).mp h), rfl⟩
  · exact ⟨_, decode_classA ((mask_class op 0xA#4).mp h), rfl⟩
  · exact ⟨_, decode_classC ((mask_class op 0xC#4).mp h), rfl⟩
  · exact ⟨_, decode_classD ((mask_class op 0xD#4).mp h), rfl⟩
  · exact ⟨_, decode_FX07 ((mask_low_byte op 0xF#4 0x07#8).mp h), rfl⟩
  · exact ⟨_, decode_FX15 ((mask_low_byte op 0xF#4 0x15#8).mp h), rfl⟩
  · exact ⟨_, decode_FX29 ((mask_low_byte op 0xF#4 0x29#8).mp h), rfl⟩
  · exact ⟨_, decode_FX33 ((mask_low_byte op 0xF#4 0x33#8).mp h), rfl⟩
  · exact ⟨_, decode_FX65 ((mask_low_byte op 0xF#4 0x65#8).mp h), rfl⟩

theorem decodeClass0_matches_row {op : Word} {i : Instr} (h : decodeClass0 op = .instr i) :
    op &&& (opcodeRow i).mask = (opcodeRow i).pattern := by
  unfold decodeClass0 at h
  split_ifs at h with hcls hret <;> cases h
  · exact (mask_all op 0x00E0#16).mpr hcls
  · exact (mask_all op 0x00EE#16).mpr hret

theorem decodeClass8_matches_row {op : Word} {i : Instr} (hc : opClass op = 0x8#4)
    (h : decodeClass8 op = .instr i) : op &&& (opcodeRow i).mask = (opcodeRow i).pattern := by
  unfold decodeClass8 at h
  split_ifs at h with hn
  cases h
  exact (mask_low_nibble op 0x8#4 0x2#4).mpr ⟨hc, hn⟩

theorem decodeClassF_matches_row {op : Word} {i : Instr} (hc : opClass op = 0xF#4)
    (h : decodeClassF op = .instr i) : op &&& (opcodeRow i).mask = (opcodeRow i).pattern := by
  unfold decodeClassF at h
  split_ifs at h with h07 h15 h29 h33 h65 <;> cases h
  · exact (mask_low_byte op 0xF#4 0x07#8).mpr ⟨hc, h07⟩
  · exact (mask_low_byte op 0xF#4 0x15#8).mpr ⟨hc, h15⟩
  · exact (mask_low_byte op 0xF#4 0x29#8).mpr ⟨hc, h29⟩
  · exact (mask_low_byte op 0xF#4 0x33#8).mpr ⟨hc, h33⟩
  · exact (mask_low_byte op 0xF#4 0x65#8).mpr ⟨hc, h65⟩

/-- A word that decodes matches the row of its instruction. -/
theorem matches_row_of_decode {op : Word} {i : Instr} (h : decode op = .instr i) :
    op &&& (opcodeRow i).mask = (opcodeRow i).pattern := by
  rcases class_cases (opClass op) with hc | hc | hc | hc | hc | hc | hc | hc | hc | hc | hc | hc
  · exact decodeClass0_matches_row ((decode_class0 hc).symm.trans h)
  · cases (decode_class1 hc).symm.trans h
    exact (mask_class op 0x1#4).mpr hc
  · cases (decode_class2 hc).symm.trans h
    exact (mask_class op 0x2#4).mpr hc
  · cases (decode_class3 hc).symm.trans h
    exact (mask_class op 0x3#4).mpr hc
  · cases (decode_class6 hc).symm.trans h
    exact (mask_class op 0x6#4).mpr hc
  · cases (decode_class7 hc).symm.trans h
    exact (mask_class op 0x7#4).mpr hc
  · exact decodeClass8_matches_row hc ((decode_class8 hc).symm.trans h)
  · cases (decode_classA hc).symm.trans h
    exact (mask_class op 0xA#4).mpr hc
  · cases (decode_classC hc).symm.trans h
    exact (mask_class op 0xC#4).mpr hc
  · cases (decode_classD hc).symm.trans h
    exact (mask_class op 0xD#4).mpr hc
  · exact decodeClassF_matches_row hc ((decode_classF hc).symm.trans h)
  · cases (decode_class_unnamed hc).symm.trans h

/-- Two rows that match one word are the row of the one instruction it decodes to. -/
theorem matching_row_unique {op : Word} {r₁ r₂ : OpcodeRow} (hr₁ : r₁ ∈ opcodeTable)
    (hr₂ : r₂ ∈ opcodeTable) (h₁ : op &&& r₁.mask = r₁.pattern)
    (h₂ : op &&& r₂.mask = r₂.pattern) : r₁ = r₂ := by
  obtain ⟨i, hi, rfl⟩ := decode_of_matches_row hr₁ h₁
  obtain ⟨j, hj, rfl⟩ := decode_of_matches_row hr₂ h₂
  cases hi.symm.trans hj
  rfl

theorem decode_of_no_row {op : Word} (h : ∀ r ∈ opcodeTable, op &&& r.mask ≠ r.pattern) :
    decode op = .opcodeNotSupported op := by
  rcases decode_total op with ⟨i, hi⟩ | hillegal
  · exact absurd (matches_row_of_decode hi) (h _ (opcodeRow_mem i))
  · exact hillegal

/-! ### The illegal words (30_encoding.md R71) -/

theorem opN_eq_iff (op : Word) (n : Nibble) : opN op = n ↔ op.toNat % 16 = n.toNat := by
  rw [← BitVec.toNat_inj, opN_toNat]

theorem opNN_eq_iff (op : Word) (nn : Byte) : opNN op = nn ↔ op.toNat % 256 = nn.toNat := by
  rw [← BitVec.toNat_inj, opNN_toNat]

/-- A choice between an instruction and a verdict is that verdict when the guard fails and the
alternative is. -/
theorem ite_instr_eq_verdict_iff {p : Prop} [Decidable p] {i : Instr} {d : Decoded} {op : Word} :
    (if p then .instr i else d) = Decoded.opcodeNotSupported op ↔
      ¬ p ∧ d = .opcodeNotSupported op := by
  split_ifs with hp <;> simp [hp]

theorem decodeClass0_illegal_iff (op : Word) :
    decodeClass0 op = .opcodeNotSupported op ↔ op.toNat ≠ 0x00E0 ∧ op.toNat ≠ 0x00EE := by
  simp [decodeClass0, ite_instr_eq_verdict_iff, ← BitVec.toNat_inj]

theorem decodeClass8_illegal_iff (op : Word) :
    decodeClass8 op = .opcodeNotSupported op ↔ op.toNat % 16 ≠ 2 := by
  simp [decodeClass8, opN_eq_iff]

theorem decodeClassF_illegal_iff (op : Word) :
    decodeClassF op = .opcodeNotSupported op ↔
      op.toNat % 256 ∉ [0x07, 0x15, 0x29, 0x33, 0x65] := by
  simp [decodeClassF, ite_instr_eq_verdict_iff, opNN_eq_iff]

/-- R71's list, class by class as the decoder dispatches. -/
theorem decode_illegal_iff (op : Word) :
    decode op = .opcodeNotSupported op ↔
      (op.toNat / 4096 ∈ [0x4, 0x5, 0x9, 0xB, 0xE]
        ∨ (op.toNat / 4096 = 0x0 ∧ op.toNat ≠ 0x00E0 ∧ op.toNat ≠ 0x00EE)
        ∨ (op.toNat / 4096 = 0x8 ∧ op.toNat % 16 ≠ 2)
        ∨ (op.toNat / 4096 = 0xF ∧ op.toNat % 256 ∉ [0x07, 0x15, 0x29, 0x33, 0x65])) := by
  rw [← opClass_toNat]
  rcases class_cases (opClass op) with hc | hc | hc | hc | hc | hc | hc | hc | hc | hc | hc | hc
  · rw [decode_class0 hc, decodeClass0_illegal_iff]
    simp [hc]
  · simp [decode_class1 hc, hc]
  · simp [decode_class2 hc, hc]
  · simp [decode_class3 hc, hc]
  · simp [decode_class6 hc, hc]
  · simp [decode_class7 hc, hc]
  · rw [decode_class8 hc, decodeClass8_illegal_iff]
    simp [hc]
  · simp [decode_classA hc, hc]
  · simp [decode_classC hc, hc]
  · simp [decode_classD hc, hc]
  · rw [decode_classF hc, decodeClassF_illegal_iff]
    simp [hc]
  · have hmem : (opClass op).toNat ∈ [0x4, 0x5, 0x9, 0xB, 0xE] :=
      List.mem_map_of_mem (f := BitVec.toNat) hc
    exact iff_of_true (decode_class_unnamed hc) (.inl hmem)

end Sys2Proof

namespace Sys2Proof.Machine

/-- A cycle that fetches an illegal word raises it, with pc advanced past it (40_cycle.md R82). -/
theorem advance_of_illegal {s : State} {op : Word} (hf : s.fault = none) (hfetch : fetch s = .ok op)
    (hdec : decode op = .opcodeNotSupported op) :
    advance s = raise (.opcodeNotSupported op) s.advancePc := by
  rw [advance, gated_of_no_fault hf, cycle, hfetch]
  exact execute_of_illegal hdec _

/-- Settles O26: a row and the instruction decoded name each other, so the row is unique, and a word
without a row is the decoder's other result. -/
theorem exactlyOneRowMatchesOrNone : Obligations.ExactlyOneRowMatchesOrNone := by
  intro op
  refine ⟨fun r₁ hr₁ r₂ hr₂ => matching_row_unique hr₁ hr₂, fun r => decode_of_matches_row,
    fun i hi => ⟨opcodeRow_mem i, matches_row_of_decode hi⟩, fun hno => ?_⟩
  have hdec := decode_of_no_row hno
  exact ⟨hdec, execute_of_illegal hdec⟩

/-- Settles O27: the list by `decode_illegal_iff`, the cycle by `advance_of_illegal`. -/
theorem illegalWordsRaiseOpcodeNotSupported : Obligations.IllegalWordsRaiseOpcodeNotSupported :=
  fun op => ⟨decode_illegal_iff op, fun _ => advance_of_illegal⟩

end Sys2Proof.Machine
end

section
/-! The collisions of a draw (41_display.md R92), pixel by pixel and in VF, and the clear of R91. -/

namespace Sys2Proof.Machine

/-! ### 00E0 (41_display.md R91) -/

/-- Settles O1: the clear leaves every pixel off, and its frame is that of `clearDisplay`. -/
theorem clsClearsTheDisplay : Obligations.ClsClearsTheDisplay := by
  refine ⟨by decide, fun s => ⟨s.clearDisplay, rfl, pixel_clearDisplay s, ?_⟩⟩
  exact ⟨fun r _ => State.getV_clearDisplay s r, State.readByte_clearDisplay s, rfl, rfl, rfl, rfl,
    ⟨rfl, rfl⟩, rfl, rfl, rfl, rfl⟩

/-! ### The anchor and the rows on screen (41_display.md R93) -/

theorem State.Inv.width_pos {s : State} (h : s.Inv) : 0 < s.params.width := by
  have hwf := h.params
  simp only [Params.wf, Bool.and_eq_true, decide_eq_true_eq] at hwf
  omega

theorem anchor_lt (v : Byte) {dimension : Nat} (h : 0 < dimension) :
    anchor v dimension < dimension :=
  Nat.mod_lt _ h

/-- The rows of a draw end at the bottom edge. -/
theorem visibleRows_onScreen (n : Nibble) (height y0 : Nat) :
    visibleRows n height y0 = 0 ∨ y0 + visibleRows n height y0 ≤ height := by
  unfold visibleRows
  omega

/-! ### Collisions (41_display.md R92) -/

/-- The draw that takes `s` to `t` turned the pixel (px, py) off. -/
def CollidedAt (s t : State) (px py : Nat) : Prop := s.pixel px py = true ∧ t.pixel px py = false

theorem not_collidedAt {s t : State} {px py : Nat}
    (hkept : s.pixel px py = true → t.pixel px py = true) : ¬ CollidedAt s t px py := by
  rintro ⟨hon, hoff⟩
  rw [hkept hon] at hoff
  cases hoff

section Draw

variable {s : State} {x0 y0 n : Nat}

/-- A pixel collides exactly when it lies in the rectangle, was on, and is under a sprite bit
of 1. -/
theorem collidedAt_drawRows_iff (h : GridShape s) (hx : x0 < s.params.width)
    (hy : n = 0 ∨ y0 + n ≤ s.params.height) (px py : Nat) :
    CollidedAt s (drawRows x0 y0 n s) px py ↔
      x0 ≤ px ∧ px < x0 + visibleColumns s.params.width x0 ∧ y0 ≤ py ∧ py < y0 + n
        ∧ s.pixel px py = true ∧ spriteBitAt s x0 y0 px py = true := by
  have hpixel := pixel_drawRows h hx hy px py
  split at hpixel
  case isTrue hin =>
    obtain ⟨h1, h2, h3, h4⟩ := hin
    rw [CollidedAt, hpixel]
    cases s.pixel px py <;> simp [h1, h2, h3, h4]
  case isFalse hout =>
    refine iff_of_false (not_collidedAt hpixel.trans) ?_
    rintro ⟨h1, h2, h3, h4, -⟩
    exact hout ⟨h1, h2, h3, h4⟩

theorem VF_drawRows_of_collision (h : GridShape s) (hx : x0 < s.params.width)
    (hy : n = 0 ∨ y0 + n ≤ s.params.height)
    (hc : ∃ px py, CollidedAt s (drawRows x0 y0 n s) px py) :
    (drawRows x0 y0 n s).getV flagRegister = 1 := by
  simp only [collidedAt_drawRows_iff h hx hy] at hc
  exact (VF_drawRows h hx rfl hy).1 hc

theorem VF_drawRows_of_no_collision (h : GridShape s) (hx : x0 < s.params.width)
    (hy : n = 0 ∨ y0 + n ≤ s.params.height)
    (hc : ¬ ∃ px py, CollidedAt s (drawRows x0 y0 n s) px py) :
    (drawRows x0 y0 n s).getV flagRegister = s.getV flagRegister := by
  simp only [collidedAt_drawRows_iff h hx hy] at hc
  exact (VF_drawRows h hx rfl hy).2 hc

end Draw

/-- Settles O20: a completed DXYN is `drawRows` at its anchor, whose collisions are those of
`collidedAt_drawRows_iff`. -/
theorem vfRecordsACollisionAndIsNeverCleared :
    Obligations.VFRecordsACollisionAndIsNeverCleared := by
  intro x y n s t hinv hexec
  obtain ⟨x0, y0, rows, hx0, hy0, rfl, -, rfl⟩ := execDrw_next hexec
  have hgrid := hinv.gridShape
  have hx : x0 < s.params.width := hx0 ▸ anchor_lt _ hinv.width_pos
  have hy := visibleRows_onScreen n s.params.height y0
  refine ⟨VF_drawRows_of_collision hgrid hx hy, fun hkept => ?_, ?_⟩
  · refine VF_drawRows_of_no_collision hgrid hx hy ?_
    rintro ⟨px, py, hc⟩
    exact not_collidedAt (hkept px py) hc
  · rintro _ _ px py rfl rfl
    subst hx0 hy0
    exact collidedAt_drawRows_iff hgrid hx hy px py

end Sys2Proof.Machine
end

section
/-! The jump and the skip of 42_control_flow.md: their words (R102, R104), and each as a move of pc
and of nothing else. -/

namespace Sys2Proof

/-! ### The words of the jump, the skip and the compares (30_encoding.md R67, R71) -/

theorem decode_1NNN (nnn : Addr12) :
    decode (0x1000#16 ||| nnn.setWidth 16) = .instr (.jp nnn) := by
  obtain ⟨hclass, hnnn⟩ := fields_layoutNNN (toNat_orNNN 0x1#4 nnn)
  exact (decode_class1 hclass).trans (by rw [hnnn])

theorem decode_3XNN (x : Nibble) (nn : Byte) :
    decode (0x3000#16 ||| (x.setWidth 16 <<< 8) ||| nn.setWidth 16) = .instr (.se x nn) := by
  obtain ⟨hclass, hx, hnn⟩ := fields_layoutXNN (toNat_orXNN 0x3#4 x nn)
  exact (decode_class3 hclass).trans (by rw [hx, hnn])

theorem decode_of_unnamed_class {op : Word} {c : Nibble} (h : opClass op = c)
    (hc : c ∈ [0x4#4, 0x5#4, 0x9#4, 0xB#4, 0xE#4]) : decode op = .opcodeNotSupported op :=
  decode_class_unnamed (h ▸ hc)

theorem decode_4XNN (x : Nibble) (nn : Byte) :
    decode (0x4000#16 ||| (x.setWidth 16 <<< 8) ||| nn.setWidth 16)
      = .opcodeNotSupported (0x4000#16 ||| (x.setWidth 16 <<< 8) ||| nn.setWidth 16) := by
  obtain ⟨hclass, -⟩ := fields_layoutXNN (toNat_orXNN 0x4#4 x nn)
  exact decode_of_unnamed_class hclass (by decide)

theorem opClass_orXY (c x y : Nibble) :
    opClass (BitVec.ofNat 16 (c.toNat * 4096) ||| (x.setWidth 16 <<< 8) ||| (y.setWidth 16 <<< 4))
      = c := by
  have hx := x.isLt
  have hy := y.isLt
  apply BitVec.eq_of_toNat_eq
  rw [opClass_toNat, toNat_orXY]
  omega

theorem decode_5XY0 (x y : Nibble) :
    decode (0x5000#16 ||| (x.setWidth 16 <<< 8) ||| (y.setWidth 16 <<< 4))
      = .opcodeNotSupported (0x5000#16 ||| (x.setWidth 16 <<< 8) ||| (y.setWidth 16 <<< 4)) :=
  decode_of_unnamed_class (opClass_orXY 0x5#4 x y) (by decide)

theorem decode_9XY0 (x y : Nibble) :
    decode (0x9000#16 ||| (x.setWidth 16 <<< 8) ||| (y.setWidth 16 <<< 4))
      = .opcodeNotSupported (0x9000#16 ||| (x.setWidth 16 <<< 8) ||| (y.setWidth 16 <<< 4)) :=
  decode_of_unnamed_class (opClass_orXY 0x9#4 x y) (by decide)

end Sys2Proof

namespace Sys2Proof.Machine

/-! ### A move of pc -/

/-- A write of pc changes nothing else (10_state.md R27). -/
theorem onlyPcAndV_setPc (written : Nibble → Prop) (s : State) (w : Word) :
    OnlyPcAndV written s (s.setPc w) :=
  ⟨fun _ _ => rfl, fun _ => rfl, fun _ _ => rfl, rfl, rfl, rfl, ⟨rfl, rfl⟩, rfl, rfl, rfl, rfl⟩

@[simp] theorem setPc_pc_self (s : State) : s.setPc s.pc = s := rfl

@[simp] theorem setPc_advancePc (s : State) (w : Word) : s.advancePc.setPc w = s.setPc w := rfl

theorem advancePc_pc_toNat (s : State) : s.advancePc.pc.toNat = (s.pc.toNat + 2) % 65536 :=
  BitVec.toNat_add s.pc 2

/-- A cycle that fetches an instruction executes it, with pc advanced past it (40_cycle.md R82). -/
theorem advance_of_instr {s : State} {op : Word} {i : Instr} (hf : s.fault = none)
    (hfetch : fetch s = .ok op) (hdec : decode op = .instr i) : advance s = exec i s.advancePc := by
  rw [advance, gated_of_no_fault hf, cycle, hfetch]
  exact execute_of_instr hdec _

/-! ### 1NNN (42_control_flow.md R102) -/

/-- Settles O3: the jump is one write of pc; a jump to its own address undoes the
fetch's advance. -/
theorem jpLoadsPc : Obligations.JpLoadsPc := by
  intro nnn
  refine ⟨decode_1NNN nnn, fun s => ?_, fun s hfault hpc hfetch => ?_⟩
  · exact ⟨s.setPc (targetOf nnn), rfl, targetOf_toNat nnn, onlyPcAndV_setPc _ s _⟩
  · have htarget : targetOf nnn = s.pc :=
      BitVec.eq_of_toNat_eq ((targetOf_toNat nnn).trans hpc.symm)
    calc advance s
        = exec (.jp nnn) s.advancePc := advance_of_instr hfault hfetch (decode_1NNN nnn)
      _ = .next (s.advancePc.setPc (targetOf nnn)) := rfl
      _ = .next s := by rw [htarget, setPc_advancePc, setPc_pc_self]

/-! ### 3XNN (42_control_flow.md R104) -/

/-- Settles O5: the skip taken and not taken; the fetch after it faults by `fetch_error_pc`. -/
theorem seSkipsOnEquality : Obligations.SeSkipsOnEquality := by
  intro x nn
  refine ⟨decode_3XNN x nn, fun s => ?_, decode_4XNN x nn,
    fun y => ⟨decode_5XY0 x y, decode_9XY0 x y⟩⟩
  by_cases hequal : s.getV x = nn
  · exact ⟨s.advancePc, execSe_taken hequal, fun _ => advancePc_pc_toNat s,
      fun hdiffer => absurd hequal hdiffer, fetch_error_pc (s := s.advancePc),
      onlyPcAndV_setPc _ s _⟩
  · exact ⟨s, execSe_not_taken hequal, fun h => absurd h hequal, fun _ => rfl, fetch_error_pc,
      onlyPcAndV_setPc _ s s.pc⟩

end Sys2Proof.Machine
end

section
/-! The immediate load, the addition and the mask of 43_alu.md: their words (R111, R112, R113), and
each as one write of V[X] and of nothing else. -/

namespace Sys2Proof

/-! ### The words of the ALU (30_encoding.md R67) -/

theorem decode_6XNN (x : Nibble) (nn : Byte) :
    decode (0x6000#16 ||| (x.setWidth 16 <<< 8) ||| nn.setWidth 16) = .instr (.ldImm x nn) := by
  obtain ⟨hclass, hx, hnn⟩ := fields_layoutXNN (toNat_orXNN 0x6#4 x nn)
  exact (decode_class6 hclass).trans (by rw [hx, hnn])

theorem decode_7XNN (x : Nibble) (nn : Byte) :
    decode (0x7000#16 ||| (x.setWidth 16 <<< 8) ||| nn.setWidth 16) = .instr (.addImm x nn) := by
  obtain ⟨hclass, hx, hnn⟩ := fields_layoutXNN (toNat_orXNN 0x7#4 x nn)
  exact (decode_class7 hclass).trans (by rw [hx, hnn])

/-- The function nibble, written into the class word, is the low field of the layout. -/
theorem toNat_8002_or (x y : Nibble) :
    (0x8002#16 ||| (x.setWidth 16 <<< 8) ||| (y.setWidth 16 <<< 4) : Word).toNat
      = 0x8 * 4096 + x.toNat * 256 + y.toNat * 16 + 0x2 := by
  have hsplit : 0x8002#16 = 0x8000#16 ||| (0x2#4).setWidth 16 := by decide
  have hlast : (0x8002#16 ||| (x.setWidth 16 <<< 8) ||| (y.setWidth 16 <<< 4) : Word)
      = 0x8000#16 ||| (x.setWidth 16 <<< 8) ||| (y.setWidth 16 <<< 4) ||| (0x2#4).setWidth 16 := by
    rw [hsplit]
    ac_rfl
  rw [hlast]
  exact toNat_orXYN 0x8#4 x y 0x2#4

/-- The word of `8XY2`, by its operands: `decode_8XY2` on the fields of R113's layout. -/
theorem decode_8002_or (x y : Nibble) :
    decode (0x8002#16 ||| (x.setWidth 16 <<< 8) ||| (y.setWidth 16 <<< 4))
      = .instr (.andReg x y) := by
  obtain ⟨hclass, hx, hy, hn⟩ :=
    fields_layoutXYN (c := 0x8#4) (n := 0x2#4) (toNat_8002_or x y)
  exact (decode_8XY2 ⟨hclass, hn⟩).trans (by rw [hx, hy])

end Sys2Proof

namespace Sys2Proof.Machine

/-- A write of one V register changes nothing else (10_state.md R21). -/
theorem onlyPcAndV_setV (s : State) (x : Nibble) (v : Byte) :
    OnlyPcAndV (onlyRegister x) s (s.setV x v) :=
  ⟨fun _ hr => State.getV_setV_other s v hr, State.readByte_setV s x v, State.pixel_setV s x v, rfl,
    rfl, rfl, ⟨rfl, rfl⟩, rfl, rfl, rfl, rfl⟩

/-- Settles O6: the load is one write of V[X]. -/
theorem ldImmLoadsItsRegister : Obligations.LdImmLoadsItsRegister := by
  intro x nn
  refine ⟨decode_6XNN x nn, fun s => ⟨s.setV x nn, rfl, ?_, rfl, onlyPcAndV_setV s x nn⟩⟩
  exact State.getV_setV_same s x nn

/-- After 7XNN, V[X] is the sum modulo 256 (43_alu.md R112). -/
theorem addImm_getV_toNat (s : State) (x : Nibble) (nn : Byte) :
    ((s.setV x (s.getV x + nn)).getV x).toNat = ((s.getV x).toNat + nn.toNat) % 256 := by
  rw [State.getV_setV_same, BitVec.toNat_add]

/-- Settles O7: the addition is one write of V[X], and the second one starts from the first sum. -/
theorem addImmWrapsModulo256 : Obligations.AddImmWrapsModulo256 := by
  intro x nn
  refine ⟨decode_7XNN x nn, fun s => ?_⟩
  have hfirst := addImm_getV_toNat s x nn
  refine ⟨_, rfl, hfirst, rfl, onlyPcAndV_setV s x _, _, rfl, ?_⟩
  rw [addImm_getV_toNat, hfirst]
  omega

/-- Settles O8: the mask is one write of V[X]; it leaves V[Y] when Y is another register, and the
value of V[X] when Y = X. -/
theorem andMasksItsRegister : Obligations.AndMasksItsRegister := by
  intro x y
  refine ⟨decode_8002_or x y, fun s => ?_⟩
  have hmask := State.getV_setV_same s x (s.getV x &&& s.getV y)
  refine ⟨_, rfl, fun k _ => ?_, ?_, fun hxy => ?_, rfl, onlyPcAndV_setV s x _⟩
  · rw [hmask, BitVec.getLsbD_and]
  · rintro rfl
    rw [hmask, BitVec.and_self]
  · exact State.getV_setV_other s _ (Ne.symm hxy)

end Sys2Proof.Machine
end

section
/-! The index load and the writer of memory of 44_index_memory.md: a write of I (R121), and FX33 as
the only instruction that changes memory (R126). -/

namespace Sys2Proof

/-! ### The words of the index and memory instructions (30_encoding.md R67, R71) -/

theorem decode_ANNN (nnn : Addr12) :
    decode (0xA000#16 ||| nnn.setWidth 16) = .instr (.ldI nnn) := by
  obtain ⟨hclass, hnnn⟩ := fields_layoutNNN (toNat_orNNN 0xA#4 nnn)
  exact (decode_classA hclass).trans (by rw [hnnn])

/-- The function byte, written into the class word, is the low field of the layout. -/
theorem toNat_FXNN_or (x : Nibble) (nn : Byte) :
    (0xF000#16 ||| nn.setWidth 16 ||| (x.setWidth 16 <<< 8) : Word).toNat
      = 0xF * 4096 + x.toNat * 256 + nn.toNat := by
  have hlast : (0xF000#16 ||| nn.setWidth 16 ||| (x.setWidth 16 <<< 8) : Word)
      = 0xF000#16 ||| (x.setWidth 16 <<< 8) ||| nn.setWidth 16 := by ac_rfl
  rw [hlast]
  exact toNat_orXNN 0xF#4 x nn

/-- Class 0xF with a function byte that is none of its five members. -/
theorem decode_FXNN_illegal (x : Nibble) {nn : Byte} {word : Word}
    (hword : word = 0xF000#16 ||| nn.setWidth 16)
    (hnn : nn.toNat ∉ [0x07, 0x15, 0x29, 0x33, 0x65]) :
    decode (word ||| (x.setWidth 16 <<< 8))
      = .opcodeNotSupported (word ||| (x.setWidth 16 <<< 8)) := by
  subst hword
  obtain ⟨hclass, -, hlow⟩ := fields_layoutXNN (c := 0xF#4) (toNat_FXNN_or x nn)
  rw [decode_classF hclass, decodeClassF_illegal_iff, ← opNN_toNat, hlow]
  exact hnn

end Sys2Proof

namespace Sys2Proof.Machine

/-! ### ANNN (44_index_memory.md R121) -/

/-- A write of I changes nothing else (10_state.md R25). -/
theorem setI_frame (s : State) (w : Word) :
    (s.setI w).pc = s.pc ∧ SameVExcept noRegister s (s.setI w) ∧ SameMemory s (s.setI w)
      ∧ SamePixels s (s.setI w) ∧ (s.setI w).S = s.S ∧ (s.setI w).DT = s.DT
      ∧ SameGenerator s (s.setI w) ∧ SameControl s (s.setI w) :=
  ⟨rfl, fun r _ => State.getV_setI s w r, State.readByte_setI s w, State.pixel_setI s w, rfl, rfl,
    ⟨rfl, rfl⟩, rfl, rfl, rfl, rfl⟩

/-- Settles O9: the load is one write of I, with a 12-bit value. -/
theorem ldILoadsTheIndex : Obligations.LdILoadsTheIndex := by
  intro nnn
  refine ⟨decode_ANNN nnn, fun s => ?_⟩
  have hI : (s.setI (targetOf nnn)).I.toNat = nnn.toNat := targetOf_toNat nnn
  exact ⟨s.setI (targetOf nnn), rfl, hI, by omega, setI_frame s _⟩

/-! ### The writer of memory (44_index_memory.md R126) -/

@[simp] theorem loadRegisters_M (n : Nat) (s : State) : (loadRegisters n s).M = s.M := by
  rw [loadRegisters_eq]

/-- Only FX33 changes memory. -/
theorem Completes.M_eq {s t : State} {i : Instr} (h : Completes s i t)
    (hi : ∀ x, i ≠ .ldBVx x) : t.M = s.M := by
  cases h
  case ldBVx x _ => exact absurd rfl (hi x)
  all_goals simp

/-- Settles O40: the instructions by the cases of `Completes`, the two words by their function
bytes. -/
theorem onlyBcdWritesMemory : Obligations.OnlyBcdWritesMemory := by
  refine ⟨fun i s t hexec hi => ?_, fun x => ⟨?_, ?_⟩⟩
  · have hM : t.M = s.M := (completes_of_exec hexec).M_eq hi
    exact ⟨hM, fun a => congrArg (Memory.read · a) hM⟩
  · exact decode_FXNN_illegal x (nn := 0x55#8) (by decide) (by decide)
  · exact decode_FXNN_illegal x (nn := 0x1E#8) (by decide) (by decide)

end Sys2Proof.Machine
end

section
/-! The timer read of 45_delay_timer.md: its word, and FX07 as one write of V[X] (R131). -/

namespace Sys2Proof

/-- The word of `FX07`, by its operand: `decode_FX07` on the fields of R131's layout. -/
theorem decode_F007_or (x : Nibble) :
    decode (0xF007#16 ||| (x.setWidth 16 <<< 8)) = .instr (.ldVxDt x) := by
  have hword : 0xF007#16 = 0xF000#16 ||| (0x07#8).setWidth 16 := by decide
  obtain ⟨hclass, hx, hnn⟩ := fields_layoutXNN (c := 0xF#4) (toNat_FXNN_or x 0x07#8)
  rw [hword, decode_FX07 ⟨hclass, hnn⟩, hx]

end Sys2Proof

namespace Sys2Proof.Machine

/-- Settles O11: the timer read is one write of V[X]; `onlyPcAndV_setV` keeps DT. -/
theorem ldVxDtReadsTheTimer : Obligations.LdVxDtReadsTheTimer := by
  intro x
  refine ⟨decode_F007_or x, fun s => ⟨s.setV x s.DT, rfl, ?_, rfl, onlyPcAndV_setV s x s.DT⟩⟩
  exact State.getV_setV_same s x s.DT

end Sys2Proof.Machine
end

section
/-! The host's copy of memory and its register port (60_exceptions.md R163, R164, R148). -/

namespace Sys2Proof.Machine

/-! ### The copy of memory (60_exceptions.md R163) -/

@[simp] theorem readBytes_length (s : State) (a n : Nat) : (readBytes s a n).length = n := by
  rw [readBytes, List.length_map, List.length_range]

theorem readBytes_getElem? (s : State) (a : Nat) {n k : Nat} (h : k < n) :
    (readBytes s a n)[k]? = some (s.readByte (a + k)) := by
  rw [readBytes, List.getElem?_map, List.getElem?_range h, Option.map_some]

/-- Settles O55: each copy is a `readBytes`, from 0 or from ROM_START to the end of memory. -/
theorem getRamCopiesMemory : Obligations.GetRamCopiesMemory := by
  intro s
  refine ⟨readBytes s 0 s.params.memSize,
    readBytes s s.params.romStart (s.params.memSize - s.params.romStart),
    rfl, readBytes_length s _ _, fun k hk => ?_, rfl, readBytes_length s _ _, fun k hk => ?_⟩
  · rw [readBytes_getElem? s 0 hk, Nat.zero_add]
  · exact readBytes_getElem? s _ (by omega)

/-! ### The register port (60_exceptions.md R148, R164) -/

theorem registerOfIndex_none {n : Nat} (h : 16 ≤ n) : registerOfIndex n = none :=
  if_neg (Nat.not_lt.mpr h)

theorem registerOfIndex_toNat (r : Nibble) : registerOfIndex r.toNat = some r := by
  rw [registerOfIndex, if_pos r.isLt, BitVec.ofNat_toNat, BitVec.setWidth_eq]

theorem hostGetV_of_invalid {n : Nat} (h : 16 ≤ n) (s : State) :
    hostGetV n s = (s, .error (.invalidRegister n)) := by
  rw [hostGetV, registerOfIndex_none h]

theorem hostSetV_of_invalid {n : Nat} (h : 16 ≤ n) (v : Byte) (s : State) :
    hostSetV n v s = (s, .error (.invalidRegister n)) := by
  rw [hostSetV, registerOfIndex_none h]

theorem hostGetV_toNat (r : Nibble) (s : State) : hostGetV r.toNat s = (s, .byte (s.getV r)) := by
  rw [hostGetV, registerOfIndex_toNat]

theorem hostSetV_toNat (r : Nibble) (v : Byte) (s : State) :
    hostSetV r.toNat v s = (s.setV r v, .done) := by
  rw [hostSetV, registerOfIndex_toNat]

/-- A cycle is reported as done, as faulted or as refused, never as an error of the port. -/
theorem reportCycle_ne_error (s : State) (r : Result) (e : HostError) :
    (reportCycle s r).2 ≠ .error e := by
  cases r <;> exact Response.noConfusion

/-- An executing transaction reports a cycle. -/
theorem transact_executes_ne_error {c : HostCall} (h : c.executes = true) (s : State)
    (e : HostError) : (transact c s).2 ≠ .error e := by
  cases c
  case advance => exact reportCycle_ne_error s (advance s) e
  case decode op => exact reportCycle_ne_error s (gated (execute op) s) e
  all_goals cases h

/-- Settles O56: an index is checked by `registerOfIndex`, and an executing transaction answers no
error at all. -/
theorem registerPortChecksItsIndex : Obligations.RegisterPortChecksItsIndex := by
  intro n v s
  refine ⟨fun hn => ⟨hostGetV_of_invalid hn s, hostSetV_of_invalid hn v s⟩,
    fun c hc => transact_executes_ne_error hc s (.invalidRegister n), ?_⟩
  rintro r rfl
  exact ⟨hostGetV_toNat r s, s.setV r v, hostSetV_toNat r v s, State.getV_setV_same s r v, rfl,
    onlyPcAndV_setV s r v⟩

end Sys2Proof.Machine
end

section
/-! The encoder and the decoder as inverses of each other (30_encoding.md R64, R67, R77), the words
of the instruction rules, and those of the spec's decoding table. -/

namespace Sys2Proof

/-! ### Decoding an encoding (30_encoding.md R64, R65) -/

theorem decode_encode (i : Instr) : decode (encode i) = .instr i := by
  cases i with
  | cls => rfl
  | ret => rfl
  | jp nnn =>
    obtain ⟨hc, hnnn⟩ := fields_layoutNNN (op := encode (.jp nnn)) (toNat_layoutNNN 0x1#4 nnn)
    rw [decode_class1 hc, hnnn]
  | call nnn =>
    obtain ⟨hc, hnnn⟩ := fields_layoutNNN (op := encode (.call nnn)) (toNat_layoutNNN 0x2#4 nnn)
    rw [decode_class2 hc, hnnn]
  | se x nn =>
    obtain ⟨hc, hx, hnn⟩ :=
      fields_layoutXNN (op := encode (.se x nn)) (toNat_layoutXNN 0x3#4 x nn)
    rw [decode_class3 hc, hx, hnn]
  | ldImm x nn =>
    obtain ⟨hc, hx, hnn⟩ :=
      fields_layoutXNN (op := encode (.ldImm x nn)) (toNat_layoutXNN 0x6#4 x nn)
    rw [decode_class6 hc, hx, hnn]
  | addImm x nn =>
    obtain ⟨hc, hx, hnn⟩ :=
      fields_layoutXNN (op := encode (.addImm x nn)) (toNat_layoutXNN 0x7#4 x nn)
    rw [decode_class7 hc, hx, hnn]
  | andReg x y =>
    obtain ⟨hc, hx, hy, hn⟩ :=
      fields_layoutXYN (op := encode (.andReg x y)) (toNat_layoutXYN 0x8#4 x y 0x2#4)
    rw [decode_8XY2 ⟨hc, hn⟩, hx, hy]
  | ldI nnn =>
    obtain ⟨hc, hnnn⟩ := fields_layoutNNN (op := encode (.ldI nnn)) (toNat_layoutNNN 0xA#4 nnn)
    rw [decode_classA hc, hnnn]
  | rnd x nn =>
    obtain ⟨hc, hx, hnn⟩ :=
      fields_layoutXNN (op := encode (.rnd x nn)) (toNat_layoutXNN 0xC#4 x nn)
    rw [decode_classC hc, hx, hnn]
  | drw x y n =>
    obtain ⟨hc, hx, hy, hn⟩ :=
      fields_layoutXYN (op := encode (.drw x y n)) (toNat_layoutXYN 0xD#4 x y n)
    rw [decode_classD hc, hx, hy, hn]
  | ldVxDt x =>
    obtain ⟨hc, hx, hlow⟩ :=
      fields_layoutXNN (op := encode (.ldVxDt x)) (toNat_layoutXNN 0xF#4 x 0x07#8)
    rw [decode_FX07 ⟨hc, hlow⟩, hx]
  | ldDtVx x =>
    obtain ⟨hc, hx, hlow⟩ :=
      fields_layoutXNN (op := encode (.ldDtVx x)) (toNat_layoutXNN 0xF#4 x 0x15#8)
    rw [decode_FX15 ⟨hc, hlow⟩, hx]
  | ldFVx x =>
    obtain ⟨hc, hx, hlow⟩ :=
      fields_layoutXNN (op := encode (.ldFVx x)) (toNat_layoutXNN 0xF#4 x 0x29#8)
    rw [decode_FX29 ⟨hc, hlow⟩, hx]
  | ldBVx x =>
    obtain ⟨hc, hx, hlow⟩ :=
      fields_layoutXNN (op := encode (.ldBVx x)) (toNat_layoutXNN 0xF#4 x 0x33#8)
    rw [decode_FX33 ⟨hc, hlow⟩, hx]
  | ldVxI x =>
    obtain ⟨hc, hx, hlow⟩ :=
      fields_layoutXNN (op := encode (.ldVxI x)) (toNat_layoutXNN 0xF#4 x 0x65#8)
    rw [decode_FX65 ⟨hc, hlow⟩, hx]

/-- A byte stream that starts with the two bytes of a word decodes as the word does. -/
theorem decodeBytes_of_decode {hi lo : Byte} {i : Instr} (h : decode (wordOfBytes hi lo) = .instr i)
    (rest : List Byte) : decodeBytes (hi :: lo :: rest) = .instr i rest := by
  rw [decodeBytes, h]

/-- Settles O24: `decode_encode`, and the two bytes are the halves of the encoded word. -/
theorem decodeOfEncodeIsTheInstruction : Obligations.DecodeOfEncodeIsTheInstruction := by
  intro i rest _
  refine ⟨decode_encode i, decodeBytes_of_decode ?_ rest⟩
  rw [Machine.wordOfBytes_high_low, decode_encode]

/-! ### Encoding what was decoded (30_encoding.md R67, R77) -/

theorem encode_of_decodeClass0 {op : Word} {i : Instr} (h : decodeClass0 op = .instr i) :
    encode i = op := by
  unfold decodeClass0 at h
  split_ifs at h with hcls hret <;> cases h
  · exact hcls.symm
  · exact hret.symm

theorem encode_of_decodeClass8 {op : Word} {i : Instr} (hc : opClass op = 0x8#4)
    (h : decodeClass8 op = .instr i) : encode i = op := by
  unfold decodeClass8 at h
  split_ifs at h with hn
  cases h
  have hlayout := layoutXYN_fields hc
  rwa [hn] at hlayout

theorem encode_of_decodeClassF {op : Word} {i : Instr} (hc : opClass op = 0xF#4)
    (h : decodeClassF op = .instr i) : encode i = op := by
  have hlayout := layoutXNN_fields hc
  unfold decodeClassF at h
  split_ifs at h with h07 h15 h29 h33 h65 <;> cases h
  · rwa [h07] at hlayout
  · rwa [h15] at hlayout
  · rwa [h29] at hlayout
  · rwa [h33] at hlayout
  · rwa [h65] at hlayout

/-- Settles O25: class by class, a word is the layout of its own fields. -/
theorem encodeOfDecodeIsTheWord : Obligations.EncodeOfDecodeIsTheWord := by
  intro op i h
  rcases class_cases (opClass op) with hc | hc | hc | hc | hc | hc | hc | hc | hc | hc | hc | hc
  · exact encode_of_decodeClass0 ((decode_class0 hc).symm.trans h)
  · cases (decode_class1 hc).symm.trans h
    exact layoutNNN_fields hc
  · cases (decode_class2 hc).symm.trans h
    exact layoutNNN_fields hc
  · cases (decode_class3 hc).symm.trans h
    exact layoutXNN_fields hc
  · cases (decode_class6 hc).symm.trans h
    exact layoutXNN_fields hc
  · cases (decode_class7 hc).symm.trans h
    exact layoutXNN_fields hc
  · exact encode_of_decodeClass8 hc ((decode_class8 hc).symm.trans h)
  · cases (decode_classA hc).symm.trans h
    exact layoutNNN_fields hc
  · cases (decode_classC hc).symm.trans h
    exact layoutXNN_fields hc
  · cases (decode_classD hc).symm.trans h
    exact layoutXYN_fields hc
  · exact encode_of_decodeClassF hc ((decode_classF hc).symm.trans h)
  · cases (decode_class_unnamed hc).symm.trans h

/-! ### Words written with OR and shifts (30_encoding.md R67) -/

/-- The word of `2NNN`, by its operand. -/
theorem decode_2NNN (nnn : Addr12) :
    decode (0x2000#16 ||| nnn.setWidth 16) = .instr (.call nnn) := by
  obtain ⟨hclass, hnnn⟩ := fields_layoutNNN (toNat_orNNN 0x2#4 nnn)
  exact (decode_class2 hclass).trans (by rw [hnnn])

/-- The word of `CXNN`, by its operands. -/
theorem decode_CXNN (x : Nibble) (nn : Byte) :
    decode (0xC000#16 ||| (x.setWidth 16 <<< 8) ||| nn.setWidth 16) = .instr (.rnd x nn) := by
  obtain ⟨hclass, hx, hnn⟩ := fields_layoutXNN (toNat_orXNN 0xC#4 x nn)
  exact (decode_classC hclass).trans (by rw [hx, hnn])

/-- The word of `DXYN`, by its operands. -/
theorem decode_DXYN (x y n : Nibble) :
    decode (0xD000#16 ||| (x.setWidth 16 <<< 8) ||| (y.setWidth 16 <<< 4) ||| n.setWidth 16)
      = .instr (.drw x y n) := by
  obtain ⟨hclass, hx, hy, hn⟩ := fields_layoutXYN (toNat_orXYN 0xD#4 x y n)
  exact (decode_classD hclass).trans (by rw [hx, hy, hn])

/-- The fields of a class-0xF word written with its function byte first. -/
theorem fields_FXNN_or (x : Nibble) {nn : Byte} {word : Word}
    (hword : word = 0xF000#16 ||| nn.setWidth 16) :
    (opClass (word ||| (x.setWidth 16 <<< 8)) = 0xF#4 ∧
      opNN (word ||| (x.setWidth 16 <<< 8)) = nn) ∧ opX (word ||| (x.setWidth 16 <<< 8)) = x := by
  subst hword
  obtain ⟨hclass, hx, hnn⟩ := fields_layoutXNN (c := 0xF#4) (toNat_FXNN_or x nn)
  exact ⟨⟨hclass, hnn⟩, hx⟩

theorem decode_F015_or (x : Nibble) :
    decode (0xF015#16 ||| (x.setWidth 16 <<< 8)) = .instr (.ldDtVx x) := by
  obtain ⟨hfunction, hx⟩ := fields_FXNN_or x (nn := 0x15#8) (word := 0xF015#16) (by decide)
  rw [decode_FX15 hfunction, hx]

theorem decode_F029_or (x : Nibble) :
    decode (0xF029#16 ||| (x.setWidth 16 <<< 8)) = .instr (.ldFVx x) := by
  obtain ⟨hfunction, hx⟩ := fields_FXNN_or x (nn := 0x29#8) (word := 0xF029#16) (by decide)
  rw [decode_FX29 hfunction, hx]

theorem decode_F033_or (x : Nibble) :
    decode (0xF033#16 ||| (x.setWidth 16 <<< 8)) = .instr (.ldBVx x) := by
  obtain ⟨hfunction, hx⟩ := fields_FXNN_or x (nn := 0x33#8) (word := 0xF033#16) (by decide)
  rw [decode_FX33 hfunction, hx]

theorem decode_F065_or (x : Nibble) :
    decode (0xF065#16 ||| (x.setWidth 16 <<< 8)) = .instr (.ldVxI x) := by
  obtain ⟨hfunction, hx⟩ := fields_FXNN_or x (nn := 0x65#8) (word := 0xF065#16) (by decide)
  rw [decode_FX65 hfunction, hx]

/-! ### Words of the spec (95_test_vectors.md) -/

/-- Settles O23: each word is a literal, and the decoder computes. -/
theorem specWordsDecode : Obligations.SpecWordsDecode := by
  unfold Obligations.SpecWordsDecode
  decide

end Sys2Proof
end

section
/-! What keeps a state legal (10_state.md R20): the shared operations, the instructions that
complete, the cycle that faults, the host's transactions and the tick. -/

namespace Sys2Proof.Machine

/-! ### The operations that write memory, the display or the stack -/

/-- A state with the parameters, memory and stack of a legal one, and a display of H rows of W
pixels, is legal. -/
theorem State.Inv.of_gridShape {s t : State} (h : s.Inv) (hgrid : GridShape t)
    (hp : t.params = s.params) (hM : t.M = s.M) (hS : t.S = s.S) : t.Inv where
  params := hp ▸ h.params
  memCanonical := hM ▸ h.memCanonical
  memInside := by
    rw [hM, hp]
    exact h.memInside
  rows := hgrid.1
  columns := hgrid.2
  stack := by
    rw [hS, hp]
    exact h.stack

theorem State.Inv.storeBytes {s : State} (h : s.Inv) {a : Nat} {bs : List Byte}
    (hfits : a + bs.length ≤ s.params.memSize) : (storeBytes a bs s).Inv := by
  rw [storeBytes_eq]
  exact { h with
    memCanonical := wf_storeBytes h.memCanonical a bs
    memInside := within_storeBytes h.memInside hfits }

theorem State.Inv.pop {s : State} (h : s.Inv) : s.pop.Inv :=
  { h with
    stack := fun d hd => by
      have hle := h.stack d hd
      rw [State.pop_S, List.length_dropLast]
      omega }

theorem stackFull_eq_false_iff {s : State} :
    s.stackFull = false ↔ s.params.stackDepth ≠ some s.S.length := by
  unfold State.stackFull
  split
  case h_1 hd => simp [hd]
  case h_2 d hd => simp [hd, eq_comm]

theorem State.Inv.push {s : State} (h : s.Inv) (room : s.stackFull = false) (a : Word) :
    (s.push a).Inv :=
  { h with
    stack := fun d hd => by
      have hle := h.stack d hd
      have hne : s.S.length ≠ d := by
        rintro rfl
        exact stackFull_eq_false_iff.mp room hd
      rw [State.push_S, List.length_append, List.length_singleton]
      omega }

theorem State.Inv.recordFault {s : State} (h : s.Inv) (r : FaultRecord) : (s.recordFault r).Inv :=
  h.congr rfl rfl rfl rfl

theorem State.Inv.advancePc {s : State} (h : s.Inv) : s.advancePc.Inv := h.congr rfl rfl rfl rfl

theorem State.Inv.deliverTicks {s : State} (h : s.Inv) : (deliverTicks s).Inv :=
  h.congr (deliverTicks_params s) (deliverTicks_M s) (deliverTicks_D s) (deliverTicks_S s)

/-- A check that passes leaves the bytes of a non-empty access inside memory (R123). -/
theorem le_memSize_of_inRange {s : State} {n : Nat} (h : outOfRange s (n + 1) = none) :
    s.I.toNat + (n + 1) ≤ s.params.memSize :=
  (outOfRange_eq_none_iff.mp h).resolve_left (Nat.succ_ne_zero n)

/-! ### An instruction that completes -/

@[simp] theorem loadRegisters_params (n : Nat) (s : State) :
    (loadRegisters n s).params = s.params := by rw [loadRegisters_eq]

@[simp] theorem loadRegisters_D (n : Nat) (s : State) : (loadRegisters n s).D = s.D := by
  rw [loadRegisters_eq]

@[simp] theorem loadRegisters_S (n : Nat) (s : State) : (loadRegisters n s).S = s.S := by
  rw [loadRegisters_eq]

theorem Completes.params {s t : State} {i : Instr} (h : Completes s i t) : t.params = s.params := by
  cases h <;> simp

/-- A completed instruction keeps the state legal: 00E0 and DXYN the shape of the display, 00EE and
2NNN the depth of the stack, FX33 memory; no other writes any of these. -/
theorem Completes.inv {s t : State} {i : Instr} (h : Completes s i t) (hs : s.Inv) : t.Inv := by
  cases h
  case cls => exact hs.of_gridShape (gridShape_clearDisplay hs.gridShape) rfl rfl rfl
  case ret => exact hs.pop.congr rfl rfl rfl rfl
  case call room => exact (hs.push room s.pc).congr rfl rfl rfl rfl
  case drw x0 y0 rows _ _ _ _ =>
    exact hs.of_gridShape (gridShape_drawRows hs.gridShape x0 y0 rows) (by simp) (by simp) (by simp)
  case ldBVx inRange => exact hs.storeBytes (le_memSize_of_inRange inRange)
  all_goals exact hs.congr (by simp) (by simp) (by simp) (by simp)

/-- Settles O38: the ticks before the cycle and the pc advance leave a legal state, in which a
decoded instruction completes. -/
theorem stepKeepsTheStateLegal : Obligations.StepKeepsTheStateLegal := by
  intro s t hs hstep
  obtain ⟨op, i, -, -, -, hexec⟩ := advance_next hstep
  have h := completes_of_exec hexec
  refine ⟨h.inv hs.deliverTicks.advancePc, h.params.trans ?_⟩
  simp

/-! ### The host's transactions and the tick -/

/-- A fault leaves the state of its cycle legal, with its parameters (60_exceptions.md R150). -/
theorem advance_fault_inv {s : State} {f : Fault} (hs : s.Inv) (h : advance s = .fault f) :
    f.after.Inv ∧ f.after.params = s.params := by
  rcases advance_fault h with ⟨_, -, hafter⟩ | ⟨_, -, hafter⟩ <;> rw [hafter]
  · exact ⟨hs.recordFault _, rfl⟩
  · exact ⟨hs.advancePc.recordFault _, rfl⟩

theorem Leaves.inv {s t : State} {c : HostCall} (h : Leaves s c t) (hs : s.Inv) :
    t.Inv ∧ t.params = s.params := by
  cases h
  case loadRom bytes fits => exact ⟨hs.storeBytes fits, storeBytes_params _ _ s⟩
  case setMemoryByte a v inRange => exact ⟨hs.storeBytes (bs := [v]) inRange, rfl⟩
  case setPixel x y b _ =>
    exact ⟨hs.of_gridShape (gridShape_setPixel hs.gridShape x y b) rfl rfl rfl, rfl⟩
  case clearScreen =>
    exact ⟨hs.of_gridShape (gridShape_clearDisplay hs.gridShape) rfl rfl rfl, rfl⟩
  case advanceNext hadvance =>
    obtain ⟨op, i, -, -, -, hexec⟩ := advance_next hadvance
    have h := completes_of_exec hexec
    exact ⟨h.inv hs.advancePc, h.params⟩
  case advanceFault f hadvance => exact advance_fault_inv hs hadvance
  case decodeNext op _ hexecute =>
    obtain ⟨i, -, hexec⟩ := execute_next hexecute
    have h := completes_of_exec hexec
    exact ⟨h.inv hs, h.params⟩
  case decodeFault op f _ hexecute =>
    rw [execute_fault_after hexecute]
    exact ⟨hs.recordFault _, rfl⟩
  all_goals exact ⟨hs.congr rfl rfl rfl rfl, rfl⟩

theorem tick_params (s : State) : (tick s).params = s.params := by rw [tick_eq]

theorem State.Inv.tick {s : State} (h : s.Inv) : (tick s).Inv := by
  rw [tick_eq]
  exact h.congr rfl rfl rfl rfl

/-- Settles O39: the transactions by the cases of `Leaves`, the tick by its frame. -/
theorem hostAndTimerKeepTheStateLegal : Obligations.HostAndTimerKeepTheStateLegal :=
  fun s hs => ⟨fun c => (transact_leaves c s).inv hs, hs.tick, tick_params s⟩

/-! ### Construction (10_state.md R36) -/

theorem construct_inv {p : Params} (l : Launch) (hp : p.wf = true) : (State.construct p l).Inv where
  params := hp
  memCanonical := rfl
  memInside := rfl
  rows := List.length_replicate
  columns := fun row hrow => by
    rw [List.eq_of_mem_replicate hrow]
    exact List.length_replicate
  stack := fun d _ => Nat.zero_le d

/-- Settles O37: `State.reset` is a construction with legal parameters, up to pc. -/
theorem constructionAndResetAreLegal : Obligations.ConstructionAndResetAreLegal := by
  refine ⟨fun p l hp => construct_inv l hp, ?_⟩
  rw [reset_eq_construct_then_reset]
  exact (construct_inv Launch.zero (by decide)).congr rfl rfl rfl rfl

end Sys2Proof.Machine
end

section
/-! Who writes what, from the cases of `Completes` and `Leaves`: the display and the stack
(20_memory.md R46), DT (45_delay_timer.md R130), and the register table of 10_state.md R22 with both
its columns. -/

namespace Sys2Proof.Machine

/-! ### The display and the stack (20_memory.md R46) -/

theorem Completes.D_eq {s t : State} {i : Instr} (h : Completes s i t)
    (hi : writesDisplay i = false) : t.D = s.D := by
  cases h
  case cls => cases hi
  case drw => cases hi
  all_goals simp

theorem Completes.S_eq {s t : State} {i : Instr} (h : Completes s i t)
    (hi : writesStack i = false) : t.S = s.S := by
  cases h
  case ret => cases hi
  case call => cases hi
  all_goals simp

theorem samePixels_of_D_eq {s t : State} (h : t.D = s.D) : SamePixels s t := fun x y => by
  rw [State.pixel, h, State.pixel]

theorem Leaves.D_S_of_setMemoryByte {s t : State} {a : Nat} {v : Byte}
    (h : Leaves s (.setMemoryByte a v) t) : t.D = s.D ∧ t.S = s.S := by
  cases h <;> exact ⟨rfl, rfl⟩

/-- Settles O41: the instructions by the cases of `Completes`, the store by those of `Leaves`. -/
theorem displayAndStackHaveTheirOwnInstructions :
    Obligations.DisplayAndStackHaveTheirOwnInstructions := by
  refine ⟨fun i s t hexec => ?_, fun s a v => (transact_leaves _ s).D_S_of_setMemoryByte⟩
  have h := completes_of_exec hexec
  exact ⟨fun hi => ⟨h.D_eq hi, samePixels_of_D_eq (h.D_eq hi)⟩, h.S_eq⟩

/-! ### DT (45_delay_timer.md R130) -/

@[simp] theorem loadRegisters_DT (n : Nat) (s : State) : (loadRegisters n s).DT = s.DT := by
  rw [loadRegisters_eq]

theorem Completes.DT_eq {s t : State} {i : Instr} (h : Completes s i t)
    (hi : writesTimer i = false) : t.DT = s.DT := by
  cases h
  case ldDtVx => cases hi
  all_goals simp

theorem Completes.DT_of_ldDtVx {s t : State} {x : Nibble} (h : Completes s (.ldDtVx x) t) :
    t.DT = s.getV x := by
  cases h
  rfl

theorem Leaves.DT_eq {s t : State} {c : HostCall} (h : Leaves s c t) (hc : c.executes = false) :
    t.DT = s.DT := by
  cases h
  case loadRom bytes _ => exact storeBytes_DT _ bytes s
  case advanceNext => cases hc
  case advanceFault => cases hc
  case decodeNext => cases hc
  case decodeFault => cases hc
  all_goals rfl

/-- Settles O43: the instructions by the cases of `Completes`, the host by those of `Leaves`, the
tick by its frame. -/
theorem timerIsWrittenOnlyByFX15AndTicks : Obligations.TimerIsWrittenOnlyByFX15AndTicks := by
  refine ⟨fun i s t hexec => ?_, fun c s hc => (transact_leaves c s).DT_eq hc, tick_eq,
    fun x => decode_FXNN_illegal x (nn := 0x18#8) (by decide) (by decide)⟩
  have h := completes_of_exec hexec
  refine ⟨h.DT_eq, ?_⟩
  rintro x rfl
  exact h.DT_of_ldDtVx

/-! ### The writes column of R22 -/

/-- The block load of FX65 leaves the registers above VX (44_index_memory.md R125). -/
theorem getV_loadRegisters_above (s : State) {x r : Nibble} (h : ¬ r.toNat ≤ x.toNat) :
    (loadRegisters (x.toNat + 1) s).getV r = s.getV r := by
  rw [getV_loadRegisters x.isLt, if_neg (by omega)]

/-- The block load of FX65 fills V0 to VX (44_index_memory.md R125). -/
theorem getV_loadRegisters_upTo (s : State) {x r : Nibble} (h : r.toNat ≤ x.toNat) :
    (loadRegisters (x.toNat + 1) s).getV r = s.readByte (s.I.toNat + r.toNat) := by
  rw [getV_loadRegisters x.isLt, if_pos (by omega)]

theorem Completes.sameVExcept {s t : State} {i : Instr} (h : Completes s i t) :
    SameVExcept (writesV i) s t := by
  intro r hr
  cases h
  case ldImm x nn => exact State.getV_setV_other s _ hr
  case addImm x nn => exact State.getV_setV_other s _ hr
  case andReg x y => exact State.getV_setV_other s _ hr
  case rnd x nn => exact State.getV_setV_other s.afterRandomByte _ hr
  case drw => exact getV_drawRows_other s _ _ _ hr
  case ldVxDt x => exact State.getV_setV_other s _ hr
  case ldVxI x _ => exact getV_loadRegisters_above s hr
  all_goals simp

/-- VF holds 1, or the value `v`: what every pixel of a draw keeps true (41_display.md R92). -/
def VFIsOneOr (v : Byte) (t : State) : Prop := t.getV flagRegister = 1 ∨ t.getV flagRegister = v

theorem vfIsOneOr_drawPixel {v : Byte} {t : State} (h : VFIsOneOr v t) (x y : Nat) (bit : Bool) :
    VFIsOneOr v (drawPixel x y bit t) := by
  unfold VFIsOneOr
  rw [getV_drawPixel]
  split
  · exact .inl rfl
  · exact h

theorem vfIsOneOr_drawRow {v : Byte} {t : State} (h : VFIsOneOr v t) (x0 y : Nat) (b : Byte) :
    VFIsOneOr v (drawRow x0 y b t) :=
  foldl_range_invariant (VFIsOneOr v) _ (fun _ _ ht => vfIsOneOr_drawPixel ht _ _ _) _ h

theorem vfIsOneOr_drawRows {v : Byte} {t : State} (h : VFIsOneOr v t) (x0 y0 rows : Nat) :
    VFIsOneOr v (drawRows x0 y0 rows t) :=
  foldl_range_invariant (VFIsOneOr v) _ (fun _ _ ht => vfIsOneOr_drawRow ht _ _ _) _ h

theorem Completes.VF_of_drw {s t : State} {x y n : Nibble} (h : Completes s (.drw x y n) t) :
    VFIsOneOr (s.getV flagRegister) t := by
  cases h
  exact vfIsOneOr_drawRows (.inr rfl) _ _ _

/-- Settles O44: the registers by the cases of `Completes`, VF by the loops of the draw. -/
theorem vRegistersAreWrittenOnlyAsTabled : Obligations.VRegistersAreWrittenOnlyAsTabled := by
  intro i s t hexec
  have h := completes_of_exec hexec
  refine ⟨h.sameVExcept, ?_⟩
  rintro x y n rfl
  exact h.VF_of_drw

/-! ### The reads column of R22, as noninterference

Two runs are compared: from `s` to `t`, and from `s'`, which differs from `s` in V registers only.
-/

/-- The second run's result `t'` differs from `t` in V registers only, and each register was written
with one value in both runs or in neither. -/
structure SameWrites (written : Nibble → Prop) (s s' t t' : State) : Prop where
  elsewhere : t' = { t with V := t'.V }
  registers : ∀ r, (written r ∧ t'.getV r = t.getV r) ∨
    (t.getV r = s.getV r ∧ t'.getV r = s'.getV r)

section TwoRuns

variable {written : Nibble → Prop} {s s' t t' : State}

/-- Runs that write no register. -/
theorem sameWrites_of_V_kept (helse : t' = { t with V := t'.V }) (hV : t.V = s.V)
    (hV' : t'.V = s'.V) : SameWrites written s s' t t' :=
  ⟨helse, fun r => .inr ⟨State.V_ext_iff.mp hV r, State.V_ext_iff.mp hV' r⟩⟩

/-- One more register written, with the same value in both runs. -/
theorem SameWrites.setV (h : SameWrites written s s' t t') {x : Nibble} (hx : written x)
    (v : Byte) : SameWrites written s s' (t.setV x v) (t'.setV x v) where
  elsewhere := by
    rw [h.elsewhere]
    rfl
  registers := fun r => by
    rw [State.getV_setV, State.getV_setV]
    split
    case isTrue hr => exact .inl ⟨hr ▸ hx, rfl⟩
    case isFalse => exact h.registers r

/-- One pixel of a draw: the pixels agree, so both runs collide or neither does. -/
theorem SameWrites.drawPixel (h : SameWrites written s s' t t') (hF : written flagRegister)
    (x y : Nat) (bit : Bool) :
    SameWrites written s s' (drawPixel x y bit t) (drawPixel x y bit t') := by
  have hpixel : t'.pixel x y = t.pixel x y := by rw [h.elsewhere]; rfl
  have hset : SameWrites written s s' (t.setPixel x y (t.pixel x y ^^ bit))
      (t'.setPixel x y (t.pixel x y ^^ bit)) :=
    ⟨by rw [h.elsewhere]; rfl, h.registers⟩
  unfold Machine.drawPixel
  rw [hpixel]
  unfold noteCollision
  split
  · exact hset.setV hF 1
  · exact hset

theorem SameWrites.drawRow (h : SameWrites written s s' t t') (hF : written flagRegister)
    (x0 y : Nat) (b : Byte) : SameWrites written s s' (drawRow x0 y b t) (drawRow x0 y b t') := by
  have hp : t'.params = t.params := by rw [h.elsewhere]
  unfold Machine.drawRow
  rw [hp]
  refine foldl_range_relation (SameWrites written s s') _ _ (fun a b k hround => ?_) _ h
  exact hround.drawPixel hF _ _ _

theorem SameWrites.drawRows (h : SameWrites written s s' t t') (hF : written flagRegister)
    (x0 y0 rows : Nat) :
    SameWrites written s s' (drawRows x0 y0 rows t) (drawRows x0 y0 rows t') := by
  refine foldl_range_relation (SameWrites written s s') _ _ (fun a b k hround => ?_) _ h
  have hbyte : b.readByte (effectiveAddress b.I k) = a.readByte (effectiveAddress a.I k) := by
    rw [hround.elsewhere]
    rfl
  rw [hbyte]
  exact hround.drawRow hF _ _ _

/-- The block load writes the same bytes of memory in both runs. -/
theorem sameWrites_loadRegisters (x : Nibble) (hs : s' = { s with V := s'.V }) :
    SameWrites (writesV (.ldVxI x)) s s' (loadRegisters (x.toNat + 1) s)
      (loadRegisters (x.toNat + 1) s') where
  elsewhere := by
    rw [loadRegisters_eq _ s, loadRegisters_eq _ s', hs]
  registers := fun r => by
    by_cases hr : r.toNat ≤ x.toNat
    · refine .inl ⟨hr, ?_⟩
      rw [getV_loadRegisters_upTo s' hr, getV_loadRegisters_upTo s hr, hs]
      rfl
    · exact .inr ⟨getV_loadRegisters_above s hr, getV_loadRegisters_above s' hr⟩

/-- A completing instruction whose registers read agree completes in the second run too. -/
theorem Completes.sameWrites {i : Instr} (h : Completes s i t) (hs : s' = { s with V := s'.V })
    (hreads : ∀ r, readsV i r → s'.getV r = s.getV r) :
    ∃ t', Completes s' i t' ∧ SameWrites (writesV i) s s' t t' := by
  obtain ⟨V', rfl⟩ : ∃ V', s' = { s with V := V' } := ⟨_, hs⟩
  have hstart : SameWrites (writesV i) s { s with V := V' } s { s with V := V' } :=
    sameWrites_of_V_kept rfl rfl rfl
  cases h
  case cls => exact ⟨_, .cls, sameWrites_of_V_kept rfl rfl rfl⟩
  case ret a top => exact ⟨_, .ret a top, sameWrites_of_V_kept rfl rfl rfl⟩
  case jp nnn => exact ⟨_, .jp nnn, sameWrites_of_V_kept rfl rfl rfl⟩
  case call nnn room => exact ⟨_, .call nnn room, sameWrites_of_V_kept rfl rfl rfl⟩
  case seTaken x nn equal =>
    exact ⟨_, .seTaken x nn ((hreads x rfl).trans equal), sameWrites_of_V_kept rfl rfl rfl⟩
  case seNotTaken x nn differ =>
    exact ⟨_, .seNotTaken x nn (hreads x rfl ▸ differ), hstart⟩
  case ldImm x nn => exact ⟨_, .ldImm x nn, hstart.setV rfl nn⟩
  case addImm x nn => exact ⟨_, .addImm x nn, hreads x rfl ▸ hstart.setV rfl _⟩
  case andReg x y =>
    refine ⟨_, .andReg x y, ?_⟩
    rw [hreads x (.inl rfl), hreads y (.inr rfl)]
    exact hstart.setV rfl _
  case ldI nnn => exact ⟨_, .ldI nnn, sameWrites_of_V_kept rfl rfl rfl⟩
  case rnd x nn =>
    have hdrawn : SameWrites (writesV (.rnd x nn)) s { s with V := V' } s.afterRandomByte
        (State.afterRandomByte { s with V := V' }) := sameWrites_of_V_kept rfl rfl rfl
    exact ⟨_, .rnd x nn, hdrawn.setV rfl _⟩
  case drw x y n x0 y0 rows column line onScreen inRange =>
    rw [← hreads x (.inl rfl)] at column
    rw [← hreads y (.inr rfl)] at line
    exact ⟨_, .drw x y n x0 y0 rows column line onScreen inRange, hstart.drawRows rfl x0 y0 rows⟩
  case ldVxDt x => exact ⟨_, .ldVxDt x, hstart.setV rfl s.DT⟩
  case ldDtVx x =>
    refine ⟨_, .ldDtVx x, ?_⟩
    rw [hreads x rfl]
    exact sameWrites_of_V_kept rfl rfl rfl
  case ldFVx x =>
    refine ⟨_, .ldFVx x, ?_⟩
    rw [hreads x rfl]
    exact sameWrites_of_V_kept rfl rfl rfl
  case ldBVx x inRange =>
    refine ⟨_, .ldBVx x inRange, ?_⟩
    rw [hreads x rfl]
    exact sameWrites_of_V_kept rfl (storeBytes_V _ _ _) (storeBytes_V _ _ _)
  case ldVxI x inRange => exact ⟨_, .ldVxI x inRange, sameWrites_loadRegisters x rfl⟩

end TwoRuns

/-- Settles O45: the second run by `Completes.sameWrites`. -/
theorem vRegistersAreReadOnlyAsTabled : Obligations.VRegistersAreReadOnlyAsTabled := by
  intro i s s' t hs hreads hexec
  obtain ⟨t', hcompletes, hsame⟩ := (completes_of_exec hexec).sameWrites hs hreads
  exact ⟨t', exec_of_completes hcompletes, hsame.elsewhere, hsame.registers⟩

end Sys2Proof.Machine
end

section
/-! The fetch (40_cycle.md R80, R81) and the faults: what each instruction raises, with its
condition (60_exceptions.md R142), what a fault leaves (R150), and what a recorded fault refuses
(40_cycle.md R84). -/

namespace Sys2Proof.Machine

/-! ### The fetch (40_cycle.md R80, R81) -/

/-- Settles O28: the three ranges of pc by the laws of the fetch. -/
theorem fetchIsBigEndianAndChecked : Obligations.FetchIsBigEndianAndChecked :=
  fun _ => ⟨fun h => ⟨_, fetch_ok h, wordOfBytes_toNat _ _⟩, fetch_error_next, fetch_error_pc⟩

/-- A cycle whose fetch fails raises the address the fetch reports, with pc in place (R81). -/
theorem advance_of_fetch_error {s : State} {a : Nat} (hf : s.fault = none)
    (hfetch : fetch s = .error a) : advance s = raise (.addressOutOfRange a) s := by
  rw [advance, gated_of_no_fault hf, cycle, hfetch]

/-- Settles O29: the two failing fetches, raised. -/
theorem fetchFaultLeavesPc : Obligations.FetchFaultLeavesPc :=
  fun _ hf => ⟨fun h => advance_of_fetch_error hf (fetch_error_next h),
    fun h => advance_of_fetch_error hf (fetch_error_pc h)⟩

/-! ### An instruction that faults -/

/-- `Raises s i r`: the instruction `i`, executed in `s`, fails its guard with the record `r`. It is
`exec i s = raise r s` as cases (`exec_of_raises`, `raises_of_exec`). -/
inductive Raises (s : State) : Instr → FaultRecord → Prop
  | ret (empty : s.S = []) : Raises s .ret .callStackUnderflow
  | call (nnn : Addr12) (full : s.params.stackDepth = some s.S.length) :
      Raises s (.call nnn) .callStackOverflow
  | drw (x y n : Nibble) (a : Nat)
      (outside : outOfRange s
        (visibleRows n s.params.height (anchor (s.getV y) s.params.height)) = some a) :
      Raises s (.drw x y n) (.addressOutOfRange a)
  | ldBVx (x : Nibble) (a : Nat) (outside : outOfRange s 3 = some a) :
      Raises s (.ldBVx x) (.addressOutOfRange a)
  | ldVxI (x : Nibble) (a : Nat) (outside : outOfRange s (x.toNat + 1) = some a) :
      Raises s (.ldVxI x) (.addressOutOfRange a)

theorem stackFull_eq_true_iff {s : State} :
    s.stackFull = true ↔ s.params.stackDepth = some s.S.length := by
  rw [← Bool.not_eq_false, stackFull_eq_false_iff, ne_eq, not_not]

theorem top?_eq_none_iff {s : State} : s.top? = none ↔ s.S = [] := List.getLast?_eq_none_iff

theorem exec_of_raises {s : State} {i : Instr} {r : FaultRecord} (h : Raises s i r) :
    exec i s = raise r s := by
  cases h
  case ret empty => simp only [exec, execRet, top?_eq_none_iff.mpr empty]
  case call nnn full => simp only [exec, execCall, stackFull_eq_true_iff.mpr full, if_true]
  case drw x y n a outside => simp only [exec, execDrw, outside]
  case ldBVx x a outside => simp only [exec, execLdBVx, outside]
  case ldVxI x a outside => simp only [exec, execLdVxI, outside]

theorem raises_of_exec {s : State} {i : Instr} {f : Fault} (h : exec i s = .fault f) :
    Raises s i f.record := by
  have raised : ∀ {r : FaultRecord}, Raises s i r → Raises s i f.record := fun {r} hr => by
    rw [raise_eq_fault_iff.mp ((exec_of_raises hr).symm.trans h), Fault.record_of]
    exact hr
  cases i
  case ret =>
    cases htop : s.top? with
    | none => exact raised (.ret (top?_eq_none_iff.mp htop))
    | some a => cases (exec_of_completes (.ret a htop)).symm.trans h
  case call nnn =>
    cases hfull : s.stackFull with
    | true => exact raised (.call nnn (stackFull_eq_true_iff.mp hfull))
    | false => cases (exec_of_completes (.call nnn hfull)).symm.trans h
  case drw x y n =>
    cases hrange : outOfRange s
        (visibleRows n s.params.height (anchor (s.getV y) s.params.height)) with
    | some a => exact raised (.drw x y n a hrange)
    | none => cases (exec_of_completes (.drw x y n _ _ _ rfl rfl rfl hrange)).symm.trans h
  case ldBVx x =>
    cases hrange : outOfRange s 3 with
    | some a => exact raised (.ldBVx x a hrange)
    | none => cases (exec_of_completes (.ldBVx x hrange)).symm.trans h
  case ldVxI x =>
    cases hrange : outOfRange s (x.toNat + 1) with
    | some a => exact raised (.ldVxI x a hrange)
    | none => cases (exec_of_completes (.ldVxI x hrange)).symm.trans h
  all_goals cases h

/-- A failing check names the lowest byte of the access that lies past memory, by its place in the
access (R145). -/
theorem outOfRange_lowest_offset {s : State} {n a : Nat} (h : outOfRange s n = some a) :
    ∃ k < n, s.params.memSize ≤ s.I.toNat + k ∧ (∀ j < k, s.I.toNat + j < s.params.memSize) ∧
      a = s.I.toNat + k := by
  obtain ⟨hinside, ⟨k, hk, rfl⟩, hlowest⟩ := outOfRange_lowest h
  refine ⟨k, hk, hinside, fun j hj => ?_, rfl⟩
  by_contra hj'
  have := hlowest j (by omega) (by omega)
  omega

/-- A cycle that faults was not refused. -/
theorem no_fault_of_advance_fault {s : State} {f : Fault} (h : advance s = .fault f) :
    s.fault = none := by
  cases hf : s.fault with
  | none => rfl
  | some r => cases (gated_of_fault hf cycle).symm.trans h

/-- Settles O36: the instructions by the cases of `Raises`, the cycle by its branches. -/
theorem eachInstructionFaultsOnlyAsTabled : Obligations.EachInstructionFaultsOnlyAsTabled := by
  refine ⟨fun i s f h => ?_, fun s f h => ⟨fun a hfetch => ?_, fun op hfetch hdec => ?_⟩⟩
  · have hraises := raises_of_exec h
    generalize f.record = r at hraises
    cases hraises
    case ret empty => exact .inl ⟨rfl, empty, rfl⟩
    case call nnn full => exact .inr (.inl ⟨nnn, rfl, full, rfl⟩)
    case drw x y n a outside =>
      obtain ⟨k, hk, hinside, hbefore, rfl⟩ := outOfRange_lowest_offset outside
      exact .inr (.inr ⟨_, k, .inl ⟨x, y, n, rfl, rfl⟩, hk, hinside, hbefore, rfl⟩)
    case ldBVx x a outside =>
      obtain ⟨k, hk, hinside, hbefore, rfl⟩ := outOfRange_lowest_offset outside
      exact .inr (.inr ⟨3, k, .inr (.inl ⟨x, rfl, rfl⟩), hk, hinside, hbefore, rfl⟩)
    case ldVxI x a outside =>
      obtain ⟨k, hk, hinside, hbefore, rfl⟩ := outOfRange_lowest_offset outside
      exact .inr (.inr ⟨_, k, .inr (.inr ⟨x, rfl, rfl⟩), hk, hinside, hbefore, rfl⟩)
  · have hraise := advance_of_fetch_error (no_fault_of_advance_fault h) hfetch
    rw [raise_eq_fault_iff.mp (hraise.symm.trans h), Fault.record_of]
  · have hraise := advance_of_illegal (no_fault_of_advance_fault h) hfetch hdec
    rw [raise_eq_fault_iff.mp (hraise.symm.trans h), Fault.record_of]

/-! ### Each fault as a whole outcome -/

/-- A check of a non-empty access that fails, as an equation (R123). -/
theorem outOfRange_of_lt {s : State} {n : Nat} (hn : n ≠ 0)
    (h : s.params.memSize < s.I.toNat + n) :
    outOfRange s n = some (max s.I.toNat s.params.memSize) :=
  outOfRange_eq_some_iff.mpr ⟨hn, h, rfl⟩

/-- Settles O17: both instructions fail the check of their whole block before any write. -/
theorem blockAccessesFaultAtTheLowestAddress :
    Obligations.BlockAccessesFaultAtTheLowestAddress := by
  intro x s
  refine ⟨fun h => ?_, fun h => ?_⟩
  · exact exec_of_raises (.ldBVx x _ (outOfRange_of_lt (by omega) (by omega)))
  · exact exec_of_raises (.ldVxI x _ (outOfRange_of_lt (by omega) (by omega)))

/-- Settles O19: the draw fails the check of its rows on screen before any write. -/
theorem drwFaultsBeforeAnyWrite : Obligations.DrwFaultsBeforeAnyWrite := by
  rintro x y n s R rfl hpos h
  exact exec_of_raises (.drw x y n _ (outOfRange_of_lt hpos.ne' h))

/-! ### What a fault leaves (60_exceptions.md R150) -/

theorem reportCycle_ok {s t : State} {r : Result} (h : reportCycle s r = (t, .ok)) :
    r = .next t := by
  cases r with
  | next t' =>
    cases h
    rfl
  | fault f => cases h
  | refused q => cases h

theorem reportCycle_faulted {s t : State} {r : Result} {k : FaultRecord}
    (h : reportCycle s r = (t, .faulted k)) : ∃ f, r = .fault f ∧ t = f.after ∧ k = f.record := by
  cases r with
  | next t' => cases h
  | fault f =>
    cases h
    exact ⟨f, rfl, rfl, rfl⟩
  | refused q => cases h

/-- A gated operation that was not refused ran (40_cycle.md R84). -/
theorem ran_of_gated {operation : State → Result} {s : State} {r : Result}
    (h : gated operation s = r) (hr : ∀ q, r ≠ .refused q) : operation s = r := by
  rcases gated_cases operation s with ⟨q, hq⟩ | hran
  · exact absurd (h.symm.trans hq) (hr q)
  · exact hran.symm.trans h

/-- A decode port that answers a fault executed the word and left the state of its fault. -/
theorem decode_faulted {s t : State} {op : Word} {r : FaultRecord}
    (h : transact (.decode op) s = (t, .faulted r)) :
    ∃ f, execute op s = .fault f ∧ t = f.after ∧ r = f.record := by
  obtain ⟨f, hgated, hafter, hrecord⟩ := reportCycle_faulted h
  exact ⟨f, ran_of_gated hgated nofun, hafter, hrecord⟩

/-- Settles O35: the cycle by `advance_fault`, the decode port by `execute_fault_after`. -/
theorem faultsArePrecise : Obligations.FaultsArePrecise := by
  intro s _
  refine ⟨fun a f hfetch h => ?_, fun op f hfetch h => ?_, fun op r t h => ?_⟩
  · rcases advance_fault h with ⟨_, -, hafter⟩ | ⟨op, hop, -⟩
    · exact hafter
    · cases hop.symm.trans hfetch
  · rcases advance_fault h with ⟨a, ha, -⟩ | ⟨_, -, hafter⟩
    · cases ha.symm.trans hfetch
    · exact hafter
  · obtain ⟨f, hf, rfl, rfl⟩ := decode_faulted h
    exact execute_fault_after hf

/-! ### The gate (40_cycle.md R84) -/

/-- No transaction clears a recorded fault. -/
theorem Leaves.fault_eq {s t : State} {c : HostCall} (h : Leaves s c t) {r : FaultRecord}
    (hr : s.fault = some r) : t.fault = some r := by
  have hgate : advance s = .refused (.faultPending r) := gated_of_fault hr cycle
  cases h
  case loadRom bytes _ => exact (storeBytes_fault _ bytes s).trans hr
  case advanceNext hadvance => cases hgate.symm.trans hadvance
  case advanceFault hadvance => cases hgate.symm.trans hadvance
  case decodeNext noFault _ => cases noFault.symm.trans hr
  case decodeFault noFault _ => cases noFault.symm.trans hr
  all_goals exact hr

theorem tick_fault (s : State) : (tick s).fault = s.fault := by rw [tick_eq]

/-- Settles O34: the gate is `gated_of_fault`, the transactions are the cases of `Leaves`. -/
theorem faultIsStickyAndGates : Obligations.FaultIsStickyAndGates := by
  intro s r hr
  refine ⟨gated_of_fault ((deliverTicks_fault s).trans hr) cycle, ?_, fun op => ?_,
    fun c => (transact_leaves c s).fault_eq hr, (tick_fault s).trans hr⟩
  · exact congrArg (reportCycle s) (gated_of_fault hr cycle)
  · exact congrArg (reportCycle s) (gated_of_fault hr (execute op))

end Sys2Proof.Machine
end

section
/-! The delay timer: its instruction (45_delay_timer.md R132), its ticks (R133) and the control of
its task (60_exceptions.md R169). -/

namespace Sys2Proof.Machine

/-! ### FX15 (45_delay_timer.md R132) -/

/-- Settles O12: FX15 is one write of DT. -/
theorem ldDtVxWritesTheTimer : Obligations.LdDtVxWritesTheTimer := by
  intro x
  refine ⟨decode_F015_or x, fun s => ⟨s.setDT (s.getV x), rfl, rfl, rfl, fun _ _ => rfl,
    fun _ => rfl, fun _ _ => rfl, rfl, rfl, ⟨rfl, rfl⟩, rfl, rfl, rfl, rfl⟩⟩

/-! ### Ticks (45_delay_timer.md R133) -/

/-- While the timer task runs k ticks count DT down by k and stop at 0 (45_delay_timer.md R133). -/
theorem ticks_DT_toNat {s : State} (h : s.timerRunning = true) (k : Nat) :
    (ticks k s).DT.toNat = s.DT.toNat - k := by
  induction k generalizing s with
  | zero => rfl
  | succ k ih =>
    rw [ticks, ih ((tick_timerRunning s).trans h), tick_DT, if_pos h]
    omega

theorem deliverTicks_running {s : State} (h : s.timerRunning = true) :
    deliverTicks s =
      { ticks (Config.ticksBefore s.tickIndex) s with tickIndex := s.tickIndex + 1 } :=
  if_pos h

/-- No tick raises DT. -/
theorem deliverTicks_DT_le (s : State) : (deliverTicks s).DT.toNat ≤ s.DT.toNat := by
  cases h : s.timerRunning with
  | false => rw [deliverTicks_stopped h]
  | true =>
    rw [deliverTicks_running h]
    exact (ticks_DT_toNat h _).trans_le (Nat.sub_le _ _)

theorem ticks_pc (k : Nat) (s : State) : (ticks k s).pc = s.pc := by rw [ticks_eq]

/-- Settles O47: by the count of `ticks_DT_toNat` and the frame of `ticks_eq`. -/
theorem ticksCountDownAndHoldAtZero : Obligations.TicksCountDownAndHoldAtZero :=
  fun k s => ⟨fun h => ticks_DT_toNat h k, fun h => ticks_stopped h k, ticks_eq k s⟩

/-- Settles O48: each control is one write of `timerRunning`, and a stopped timer does not tick. -/
theorem timerControlIsIdempotent : Obligations.TimerControlIsIdempotent := by
  intro s k
  refine ⟨rfl, rfl, rfl, rfl, ?_⟩
  change (ticks k (setTimer false s)).DT = s.DT
  rw [ticks_stopped rfl]
  rfl

end Sys2Proof.Machine
end

section
/-! The call and the return of 42_control_flow.md (R101, R103), and the steps that run a given word:
the self-loop (R102), the decoded instruction at pc (40_cycle.md R82), a word stored there, and the
host's decode port (60_exceptions.md R167). -/

namespace Sys2Proof.Machine

/-! ### 00EE and 2NNN (42_control_flow.md R101, R103) -/

theorem top?_of_append {s : State} {rest : List Word} {a : Word} (h : s.S = rest ++ [a]) :
    s.top? = some a := by
  rw [State.top?, h, List.getLast?_concat]

theorem exec_ret_of_append {s : State} {rest : List Word} {a : Word} (h : s.S = rest ++ [a]) :
    exec .ret s = .next (s.pop.setPc a) :=
  exec_of_completes (.ret a (top?_of_append h))

theorem pop_S_of_append {s : State} {rest : List Word} {a : Word} (h : s.S = rest ++ [a]) :
    s.pop.S = rest := by
  rw [State.pop_S, h, List.dropLast_concat]

/-- Settles O2: a non-empty stack meets the guard of 00EE, an empty one raises. -/
theorem retPopsOrUnderflows : Obligations.RetPopsOrUnderflows := by
  refine ⟨by decide, fun s rest a hS => ?_, fun s hS => exec_of_raises (.ret hS)⟩
  exact ⟨_, exec_ret_of_append hS, rfl, pop_S_of_append hS, fun _ _ => rfl, fun _ => rfl,
    fun _ _ => rfl, rfl, rfl, ⟨rfl, rfl⟩, rfl, rfl, rfl, rfl⟩

/-- Settles O4: a stack with room meets the guard of 2NNN, a bounded, full one raises. -/
theorem callPushesOrOverflows : Obligations.CallPushesOrOverflows := by
  intro nnn
  refine ⟨decode_2NNN nnn, fun s hroom => ?_, fun s hfull => exec_of_raises (.call nnn hfull)⟩
  have hcompletes := Completes.call nnn (stackFull_eq_false_iff.mpr hroom)
  exact ⟨_, exec_of_completes hcompletes, targetOf_toNat nnn, rfl, fun _ _ => rfl, fun _ => rfl,
    fun _ _ => rfl, rfl, rfl, ⟨rfl, rfl⟩, rfl, rfl, rfl, rfl⟩

/-- Settles O22: the CALL left the stack it found with pc on top, which the RET pops. -/
theorem retUndoesCall : Obligations.RetUndoesCall := by
  intro nnn s t u hcall hS
  obtain ⟨-, rfl⟩ := execCall_next hcall
  exact ⟨_, exec_ret_of_append hS, rfl, pop_S_of_append hS⟩

/-! ### The self-loop (42_control_flow.md R102) -/

theorem selfLoop_iff {s : State} :
    s.selfLoop = true ↔ ∃ op, fetch s = .ok op ∧ decode op = .instr (.jp (s.pc.setWidth 12)) ∧
      s.pc.toNat < 4096 := by
  unfold State.selfLoop
  cases fetch s <;> simp

/-- The self-loop is a matter of memory and pc, which no tick changes. -/
theorem selfLoop_deliverTicks (s : State) : (deliverTicks s).selfLoop = s.selfLoop := by
  simp only [State.selfLoop, fetch_deliverTicks, deliverTicks_pc]

theorem targetOf_setWidth {w : Word} (h : w.toNat < 4096) : targetOf (w.setWidth 12) = w := by
  apply BitVec.eq_of_toNat_eq
  rw [targetOf_toNat, BitVec.toNat_setWidth]
  exact Nat.mod_eq_of_lt h

/-- A cycle at a self-loop undoes the fetch's advance and changes nothing. -/
theorem advance_of_selfLoop {s : State} (hf : s.fault = none) (h : s.selfLoop = true) :
    advance s = .next s := by
  obtain ⟨op, hfetch, hdec, hpc⟩ := selfLoop_iff.mp h
  calc advance s
      = exec (.jp (s.pc.setWidth 12)) s.advancePc := advance_of_instr hf hfetch hdec
    _ = .next (s.advancePc.setPc (targetOf (s.pc.setWidth 12))) := rfl
    _ = .next s := by rw [targetOf_setWidth hpc, setPc_advancePc, setPc_pc_self]

/-- Settles O33: the step delivers its ticks, which leave the self-loop, whose cycle changes
nothing. -/
theorem selfLoopChangesOnlyTheTimer : Obligations.SelfLoopChangesOnlyTheTimer := by
  intro s hf hloop
  have hticked : (deliverTicks s).selfLoop = true := (selfLoop_deliverTicks s).trans hloop
  exact ⟨deliverTicks s, advance_of_selfLoop ((deliverTicks_fault s).trans hf) hticked,
    deliverTicks_eq s, deliverTicks_DT_le s, deliverTicks_stopped, hticked⟩

/-! ### The step runs the instruction at pc (40_cycle.md R82) -/

/-- Where two bytes decode, the word they make decodes. -/
theorem decode_of_decodeBytes {hi lo : Byte} {rest rest' : List Byte} {i : Instr}
    (h : decodeBytes (hi :: lo :: rest) = .instr i rest') :
    decode (wordOfBytes hi lo) = .instr i := by
  rcases decode_total (wordOfBytes hi lo) with ⟨j, hj⟩ | hillegal
  · cases (decodeBytes_of_decode hj rest).symm.trans h
    exact hj
  · rw [decodeBytes, hillegal] at h
    cases h

/-- A step whose fetch decodes executes the instruction after its ticks, with pc past it. -/
theorem step_of_instr {s : State} {op : Word} {i : Instr} (hf : s.fault = none)
    (hfetch : fetch s = .ok op) (hdec : decode op = .instr i) :
    step s = exec i (deliverTicks s).advancePc :=
  advance_of_instr ((deliverTicks_fault s).trans hf) ((fetch_deliverTicks s).trans hfetch) hdec

/-- Settles O30: the step by `step_of_instr`, its ticks by whether the timer task runs. -/
theorem stepRunsTheDecodedInstruction : Obligations.StepRunsTheDecodedInstruction := by
  intro s i rest hf hpc hbytes
  have hstep := step_of_instr hf (fetch_ok hpc) (decode_of_decodeBytes hbytes)
  refine ⟨fun hstopped => ?_, fun hrunning => ?_⟩
  · rw [hstep, deliverTicks_stopped hstopped]
    rfl
  · rw [hstep, deliverTicks_running hrunning, ← ticks_pc (Config.ticksBefore s.tickIndex) s]
    rfl

theorem withFetchWord_eq {s : State} (hpc : s.pc.toNat + 1 < s.params.memSize) (w : Word) :
    s.withFetchWord 16 w.toNat = storeBytes s.pc.toNat [highByte w, lowByte w] s := by
  simp only [State.withFetchWord, if_pos hpc, Nat.mod_eq_of_lt w.isLt, BitVec.ofNat_toNat,
    BitVec.setWidth_eq]

/-- A word stored big-endian at pc is what the fetch finds there (40_cycle.md R80). -/
theorem fetch_storeBytes_word {s : State} (hmem : Memory.wf s.M = true)
    (hpc : s.pc.toNat + 1 < s.params.memSize) (w : Word) :
    fetch (storeBytes s.pc.toNat [highByte w, lowByte w] s) = .ok w := by
  have hhigh := readByte_storeBytes hmem s.pc.toNat [highByte w, lowByte w] (k := 0) (by simp)
  have hlow := readByte_storeBytes hmem s.pc.toNat [highByte w, lowByte w] (k := 1) (by simp)
  rw [Nat.add_zero] at hhigh
  rw [fetch_ok (by simpa using hpc), storeBytes_pc, hhigh, hlow]
  exact congrArg _ (wordOfBytes_high_low w)

/-- Settles O31: the stored word is fetched and decodes to its instruction, and no tick falls before
the cycle. -/
theorem storedFetchWordIsRun : Obligations.StoredFetchWordIsRun := by
  intro s i hinv hf hstopped hpc
  rw [withFetchWord_eq hpc]
  have hfetch := fetch_storeBytes_word hinv.memCanonical hpc (encode i)
  rw [step_of_instr (by simpa using hf) hfetch (decode_encode i),
    deliverTicks_stopped (by simpa using hstopped)]
  rfl

/-! ### The host's decode port (60_exceptions.md R167) -/

/-- A decode port that answers `ok` completed the word's instruction. -/
theorem decode_ok {s t : State} {op : Word} {i : Instr} (hdec : decode op = .instr i)
    (h : transact (.decode op) s = (t, .ok)) : exec i s = .next t := by
  rw [← execute_of_instr hdec]
  exact ran_of_gated (reportCycle_ok h) nofun

/-- Only the jumps, the skip and 00EE write pc. -/
theorem Completes.pc_eq {s t : State} {i : Instr} (h : Completes s i t)
    (hse : ∀ x nn, i ≠ .se x nn) (hjp : ∀ nnn, i ≠ .jp nnn) (hcall : ∀ nnn, i ≠ .call nnn)
    (hret : i ≠ .ret) : t.pc = s.pc := by
  cases h
  case ret => exact absurd rfl hret
  case jp nnn => exact absurd rfl (hjp nnn)
  case call nnn _ => exact absurd rfl (hcall nnn)
  case seTaken x nn _ => exact absurd rfl (hse x nn)
  all_goals simp

theorem Completes.S_pc_of_call {s t : State} {nnn : Addr12} (h : Completes s (.call nnn) t) :
    t.S = s.S ++ [s.pc] ∧ t.pc = targetOf nnn := by
  cases h
  exact ⟨rfl, rfl⟩

theorem Completes.pc_of_se {s t : State} {x : Nibble} {nn : Byte} (h : Completes s (.se x nn) t) :
    t.pc = if s.getV x = nn then s.pc + 2 else s.pc := by
  cases h
  case seTaken equal => rw [if_pos equal, State.advancePc_pc]
  case seNotTaken differ => rw [if_neg differ]

/-- Settles O58: the port executes the word as it stands, by the cases of `Completes`. -/
theorem decodePortDoesNotAdvancePc : Obligations.DecodePortDoesNotAdvancePc := by
  intro op i s t _ hdec hport
  have hexec := decode_ok hdec hport
  have h := completes_of_exec hexec
  refine ⟨hexec, ?_, ?_, h.pc_eq⟩
  · rintro nnn rfl
    exact h.S_pc_of_call
  · rintro x nn rfl
    exact h.pc_of_se

end Sys2Proof.Machine
end

section
/-! The load of I and the accesses through it: FX29, FX33 and FX65 (44_index_memory.md R122, R124,
R125; 20_memory.md R58). -/

namespace Sys2Proof.Machine

/-! ### FX29 (44_index_memory.md R122) -/

/-- Settles O10: the load is one write of I, with an 8-bit value. -/
theorem ldFLoadsTheRegisterValue : Obligations.LdFLoadsTheRegisterValue := by
  intro x
  refine ⟨decode_F029_or x, fun s => ?_⟩
  have hI : (s.setI (zextByte (s.getV x))).I.toNat = (s.getV x).toNat := zextByte_toNat _
  exact ⟨s.setI (zextByte (s.getV x)), rfl, hI, by omega, setI_frame s _⟩

/-! ### FX33 (44_index_memory.md R124, 20_memory.md R58) -/

theorem hundredsDigit_toNat (v : Byte) : (hundredsDigit v).toNat = v.toNat / 100 := by
  rw [hundredsDigit, BitVec.toNat_ofNat]
  omega

theorem tensDigit_toNat (v : Byte) : (tensDigit v).toNat = v.toNat / 10 % 10 := by
  rw [tensDigit, BitVec.toNat_ofNat]
  omega

theorem onesDigit_toNat (v : Byte) : (onesDigit v).toNat = v.toNat % 10 := by
  rw [onesDigit, BitVec.toNat_ofNat]
  omega

/-- What FX33 stores, in order. -/
abbrev digitBytes (v : Byte) : List Byte := [hundredsDigit v, tensDigit v, onesDigit v]

/-- The three digits of `v` stored from `a` on. -/
theorem readByte_digits {s : State} (hmem : Memory.wf s.M = true) (a : Nat) (v : Byte) :
    ((storeBytes a (digitBytes v) s).readByte a).toNat = v.toNat / 100 ∧
    ((storeBytes a (digitBytes v) s).readByte (a + 1)).toNat = v.toNat / 10 % 10 ∧
    ((storeBytes a (digitBytes v) s).readByte (a + 2)).toNat = v.toNat % 10 := by
  have hstored : ∀ k (hk : k < (digitBytes v).length),
      (storeBytes a (digitBytes v) s).readByte (a + k) = (digitBytes v)[k] :=
    fun _ hk => readByte_storeBytes hmem a (digitBytes v) hk
  refine ⟨?_, ?_, ?_⟩
  · exact (congrArg BitVec.toNat (hstored 0 (by simp))).trans (hundredsDigit_toNat v)
  · exact (congrArg BitVec.toNat (hstored 1 (by simp))).trans (tensDigit_toNat v)
  · exact (congrArg BitVec.toNat (hstored 2 (by simp))).trans (onesDigit_toNat v)

/-- An access whose last byte lies in memory passes the check (R123). -/
theorem inRange_of_last_lt {s : State} {n : Nat} (h : s.I.toNat + n < s.params.memSize) :
    outOfRange s (n + 1) = none :=
  outOfRange_eq_none_iff.mpr (.inr h)

/-- Settles O15: FX33 is a store of three digits at I; the store changes nothing but memory. -/
theorem ldBStoresTheDigits : Obligations.LdBStoresTheDigits := by
  intro x
  refine ⟨decode_F033_or x, fun s hinv hrange => ?_⟩
  refine ⟨_, exec_of_completes (.ldBVx x (inRange_of_last_lt hrange)), ?_, rfl,
    fun r _ => getV_storeBytes _ _ s r, pixel_storeBytes _ _ s, storeBytes_I _ _ s,
    storeBytes_pc _ _ s, storeBytes_S _ _ s, storeBytes_DT _ _ s,
    ⟨storeBytes_rng _ _ s, storeBytes_draws _ _ s⟩, storeBytes_params _ _ s,
    storeBytes_timerRunning _ _ s, storeBytes_fault _ _ s, storeBytes_tickIndex _ _ s⟩
  rintro a rfl
  obtain ⟨hhundreds, htens, hones⟩ :=
    readByte_digits hinv.memCanonical (effectiveAddress s.I 0) (s.getV x)
  exact ⟨hhundreds, htens, hones, fun c hc => readByte_storeBytes_other hc⟩

/-- A state that holds a memory reads it. -/
theorem readByte_of_M_eq {s t : State} (h : t.M = s.M) (a : Nat) : t.readByte a = s.readByte a := by
  rw [State.readByte, h, State.readByte]

/-- Settles O46: the fetch reads the stored digits as they lie in memory, two at a time. -/
theorem storedDigitsAreFetched : Obligations.StoredDigitsAreFetched := by
  intro x s t u hinv hexec hM hparams
  obtain ⟨hrange, rfl⟩ := execLdBVx_next hexec
  have hfits := le_memSize_of_inRange hrange
  obtain ⟨hhundreds, htens, hones⟩ := readByte_digits hinv.memCanonical s.I.toNat (s.getV x)
  have hread : ∀ a, u.readByte a = (storeBytes s.I.toNat (digitBytes (s.getV x)) s).readByte a :=
    readByte_of_M_eq hM
  have hsize : u.params.memSize = s.params.memSize := by rw [hparams, storeBytes_params]
  refine ⟨fun hpc => ?_, fun hpc => ?_⟩
  · obtain ⟨op, hfetch, hop⟩ := (fetchIsBigEndianAndChecked u).1 (by rw [hpc]; omega)
    exact ⟨op, hfetch, by rw [hop, hread, hread, hpc, hhundreds, htens]⟩
  · obtain ⟨op, hfetch, hop⟩ := (fetchIsBigEndianAndChecked u).1 (by omega)
    exact ⟨op, hfetch, by rw [hop, hread, hread, hpc, htens, hones]⟩

/-! ### FX65 (44_index_memory.md R125) -/

/-- Settles O16: FX65 is a block load, which changes registers only. -/
theorem ldVxILoadsTheBlock : Obligations.LdVxILoadsTheBlock := by
  intro x
  refine ⟨decode_F065_or x, fun s hrange => ?_⟩
  refine ⟨_, exec_of_completes (.ldVxI x (inRange_of_last_lt hrange)),
    fun r hr => getV_loadRegisters_upTo s hr, by simp, fun r hr => getV_loadRegisters_above s hr,
    readByte_loadRegisters _ s, pixel_loadRegisters _ s, ?_⟩
  rw [loadRegisters_eq]
  exact ⟨rfl, rfl, rfl, ⟨rfl, rfl⟩, rfl, rfl, rfl, rfl⟩

end Sys2Proof.Machine
end

section
/-! The random byte: CXNN (43_alu.md R115), its bytes in order (R116) and the seed
(60_exceptions.md R168). -/

namespace Sys2Proof.Machine

/-! ### CXNN (43_alu.md R115, R116) -/

/-- Settles O13: CXNN advances the generator and writes the masked byte to V[X]. -/
theorem rndMasksOneRandomByte : Obligations.RndMasksOneRandomByte := by
  intro x nn
  refine ⟨decode_CXNN x nn, fun s => ?_⟩
  have hV := State.getV_setV_same s.afterRandomByte x (randomByte s &&& nn)
  refine ⟨_, rfl, hV, fun k hk => ?_, ?_, rfl, rfl,
    fun r hr => State.getV_setV_other s.afterRandomByte _ hr, fun _ => rfl, fun _ _ => rfl, rfl,
    rfl, rfl, rfl, rfl, rfl, rfl, rfl⟩
  · rw [hV, BitVec.getLsbD_and, Bool.and_eq_true] at hk
    exact hk.2
  · rintro rfl
    exact hV.trans BitVec.and_zero

/-- The mask 0xFF gives the byte itself. -/
theorem exec_rnd_unmasked (s : State) (x : Nibble) :
    exec (.rnd x 0xFF#8) s = .next (s.afterRandomByte.setV x (randomByte s)) := by
  have hall : randomByte s &&& 0xFF#8 = randomByte s := BitVec.and_allOnes
  exact congrArg (fun b => Host.Outcome.next (s.afterRandomByte.setV x b)) hall

theorem transact_setSeed_accepted {s : State} {seed : Nat} (h : seedAccepted s.params seed = true) :
    transact (.setSeed seed) s = (s.reseed seed, .done) := hostSetSeed_accepted h

/-- Without RNG_NEXT, setting a seed, accepted or not, does not touch the next byte. -/
theorem Leaves.randomByte_of_setSeed {s t : State} {seed : Nat} (h : Leaves s (.setSeed seed) t)
    (hnone : s.params.rngNext = none) : randomByte t = Config.draw8 s.draws := by
  cases h
  case unchanged => exact randomByte_of_draws hnone
  case setSeed => exact randomByte_of_draws (s := s.reseed seed) hnone

theorem rng_afterRandomByte {s : State} {g : Generator} (hg : s.params.rngNext = some g) :
    s.afterRandomByte.rng = (generatorStep g s.rng).2 := by
  rw [State.afterRandomByte_rng, generator_of_rngNext hg]

theorem rng_after_two_randomBytes {s : State} {g : Generator} (hg : s.params.rngNext = some g) :
    s.afterRandomByte.afterRandomByte.rng = (generatorStep g (generatorStep g s.rng).2).2 := by
  rw [rng_afterRandomByte (s := s.afterRandomByte) hg, rng_afterRandomByte hg]

/-- The second byte comes from the state the first one left, whatever register took it. -/
theorem randomByte_after_randomByte {s : State} {g : Generator} (hg : s.params.rngNext = some g)
    (x : Nibble) (v : Byte) :
    randomByte (s.afterRandomByte.setV x v) = (generatorStep g (generatorStep g s.rng).2).1 := by
  rw [randomByte_of_generator (s := s.afterRandomByte.setV x v) hg, State.setV_rng,
    rng_afterRandomByte hg]

/-- Settles O14: without RNG_NEXT each execution takes the draw its counter names; with it, the
generator's state passes from the seed through both bytes. -/
theorem randomBytesAreFreshDrawsOrTheGenerators :
    Obligations.RandomBytesAreFreshDrawsOrTheGenerators := by
  intro s x y seed
  refine ⟨fun hnone => ?_, fun g hg haccepted => ?_⟩
  · have hsecond := (transact_leaves (.setSeed seed)
      (s.afterRandomByte.setV x (randomByte s))).randomByte_of_setSeed hnone
    exact ⟨_, _, exec_rnd_unmasked s x,
      (State.getV_setV_same _ x _).trans (randomByte_of_draws hnone), exec_rnd_unmasked _ y,
      (State.getV_setV_same _ y _).trans hsecond⟩
  · rw [transact_setSeed_accepted haccepted]
    have hseeded : (s.reseed seed).rng = generatorSeed g seed := by
      rw [State.reseed_rng, generator_of_rngNext hg]
    have hfirst := randomByte_of_generator (s := s.reseed seed) hg
    have hsecond := randomByte_after_randomByte (s := s.reseed seed) hg x
      (randomByte (s.reseed seed))
    have hlast := rng_after_two_randomBytes (s := s.reseed seed) hg
    rw [hseeded] at hfirst hsecond hlast
    refine ⟨_, _, exec_rnd_unmasked _ x, (State.getV_setV_same _ x _).trans hfirst,
      exec_rnd_unmasked _ y, (State.getV_setV_same _ y _).trans hsecond, ?_⟩
    intro k₀ k₁ k₂ b₀ b₁ hseedRow hrow₀ hrow₁
    rw [generatorSeed_of_row hseedRow, generatorStep_of_row hrow₀] at hfirst hsecond hlast
    rw [generatorStep_of_row hrow₁] at hsecond hlast
    exact ⟨(State.getV_setV_same _ x _).trans hfirst, (State.getV_setV_same _ y _).trans hsecond,
      hlast⟩

/-! ### set_seed (60_exceptions.md R168) -/

theorem seedAccepted_iff {p : Params} {seed : Nat} :
    seedAccepted p seed = true ↔ ∀ n, p.seedCount = some n → seed < n := by
  unfold seedAccepted
  cases p.seedCount <;> simp

/-- Settles O60: an accepted seed is `reseed`, any other is refused by `seedAccepted`. -/
theorem setSeedReplacesTheGeneratorState : Obligations.SetSeedReplacesTheGeneratorState := by
  intro s seed
  refine ⟨fun haccepted => ?_, fun n hn hle => hostSetSeed_refused ?_⟩
  · exact ⟨_, transact_setSeed_accepted (seedAccepted_iff.mpr haccepted), rfl, rfl⟩
  · rw [Bool.eq_false_iff, ne_eq, seedAccepted_iff]
    exact fun h => Nat.not_lt.mpr hle (h n hn)

end Sys2Proof.Machine
end

section
/-! DXYN's closed form and the sprite drawn twice (41_display.md R94, R95 item 11), from the draw's
own loops. -/

namespace Sys2Proof.Machine

/-! ### The closed form (41_display.md R94) -/

/-- A draw changes the display and VF only (41_display.md R90). -/
theorem drawRows_frame (x0 y0 rows : Nat) (s : State) :
    SameVExcept (onlyRegister flagRegister) s (drawRows x0 y0 rows s) ∧
      SameMemory s (drawRows x0 y0 rows s) ∧ (drawRows x0 y0 rows s).I = s.I ∧
      (drawRows x0 y0 rows s).pc = s.pc ∧ (drawRows x0 y0 rows s).S = s.S ∧
      (drawRows x0 y0 rows s).DT = s.DT ∧ SameGenerator s (drawRows x0 y0 rows s) ∧
      SameControl s (drawRows x0 y0 rows s) := by
  refine ⟨fun r hr => getV_drawRows_other s x0 y0 rows hr, readByte_drawRows x0 y0 rows s, ?_⟩
  rw [drawRows_eq]
  exact ⟨rfl, rfl, rfl, rfl, ⟨rfl, rfl⟩, rfl, rfl, rfl, rfl⟩

/-- Settles O18: rows in range meet the guard of DXYN, and the loops' laws are the closed form. -/
theorem drwMeetsItsClosedForm : Obligations.DrwMeetsItsClosedForm := by
  refine fun x y n => ⟨decode_DXYN x y n, ?_⟩
  rintro s x0 y0 R C hinv hx0 hy0 rfl rfl hrange
  have hgrid := hinv.gridShape
  have hx : x0 < s.params.width := hx0 ▸ anchor_lt _ hinv.width_pos
  have hy := visibleRows_onScreen n s.params.height y0
  have hpixel := pixel_drawRows hgrid hx hy
  obtain ⟨hcollision, hnone⟩ := VF_drawRows hgrid hx rfl hy
  refine ⟨_, exec_of_completes
    (.drw x y n x0 y0 _ hx0 hy0 rfl (outOfRange_eq_none_iff.mpr hrange)), ?_, ?_, hcollision, hnone,
    drawRows_frame x0 y0 _ s⟩
  · intro px py h1 h2 h3 h4
    exact (hpixel px py).trans (if_pos ⟨h1, h2, h3, h4⟩)
  · intro px py hout
    exact (hpixel px py).trans (if_neg hout)

/-! ### The sprite drawn twice (41_display.md R95 item 11) -/

/-- The draw of the same bytes at the same anchor undoes itself. -/
theorem pixel_drawRows_twice {s : State} (h : GridShape s) {x0 y0 n : Nat}
    (hx : x0 < s.params.width) (hy : n = 0 ∨ y0 + n ≤ s.params.height) (px py : Nat) :
    (drawRows x0 y0 n (drawRows x0 y0 n s)).pixel px py = s.pixel px py := by
  have hfirst := pixel_drawRows h hx hy px py
  have hsecond := pixel_drawRows (gridShape_drawRows h x0 y0 n) (x0 := x0) (y0 := y0) (n := n)
    (by rwa [drawRows_params]) (by rwa [drawRows_params]) px py
  have hbit : spriteBitAt (drawRows x0 y0 n s) x0 y0 px py = spriteBitAt s x0 y0 px py := by
    rw [spriteBitAt, spriteBitAt, drawRows_I, readByte_drawRows]
  rw [hsecond, hbit, drawRows_params, hfirst]
  split
  · rw [Bool.xor_assoc, Bool.xor_self, Bool.xor_false]
  · rfl

/-- Settles O21: the second draw restores the pixels, so it collides exactly where the first turned
a pixel on. -/
theorem drwTwiceRestoresTheDisplay : Obligations.DrwTwiceRestoresTheDisplay := by
  intro x y n s t hinv hexec hkeptX hkeptY
  obtain ⟨x0, y0, rows, hx0, hy0, hrows, hrange, rfl⟩ := execDrw_next hexec
  have hgrid := hinv.gridShape
  have hx : x0 < s.params.width := hx0 ▸ anchor_lt _ hinv.width_pos
  have hy : rows = 0 ∨ y0 + rows ≤ s.params.height := hrows ▸ visibleRows_onScreen n _ y0
  have hrestored := pixel_drawRows_twice hgrid hx hy
  have hgrid₁ := gridShape_drawRows hgrid x0 y0 rows
  have hcompletes : Completes (drawRows x0 y0 rows s) (.drw x y n)
      (drawRows x0 y0 rows (drawRows x0 y0 rows s)) := by
    refine .drw x y n x0 y0 rows ?_ ?_ ?_ ?_
    · rw [drawRows_params]
      exact hx0.trans hkeptX.symm
    · rw [drawRows_params]
      exact hy0.trans hkeptY.symm
    · rwa [drawRows_params]
    · rw [outOfRange_eq_none_iff] at hrange ⊢
      rwa [drawRows_params, drawRows_I]
  rw [← drawRows_params x0 y0 rows s] at hx hy
  refine ⟨_, exec_of_completes hcompletes, hrestored, ?_, fun hoff => ?_⟩
  · rintro ⟨px, py, hoff, hon⟩
    exact VF_drawRows_of_collision hgrid₁ hx hy ⟨px, py, hon, (hrestored px py).trans hoff⟩
  · refine VF_drawRows_of_no_collision hgrid₁ hx hy ?_
    rintro ⟨px, py, hon, hrestoredOff⟩
    have h := hoff px py ((hrestored px py).symm.trans hrestoredOff)
    rw [h] at hon
    cases hon

end Sys2Proof.Machine
end

section
/-! Construction, `reset()` and the first step (70_reset_and_hazards.md R180, R183, R184), and the
host port's responses (60_exceptions.md R159, R161, R162, R165, R166, R171). -/

namespace Sys2Proof.Machine

/-! ### Construction and reset (70_reset_and_hazards.md R180, R183) -/

/-- The constructed display is one that a clear leaves as it is. -/
theorem clearDisplay_construct (p : Params) (l : Launch) :
    (State.construct p l).clearDisplay = State.construct p l := by
  simp [State.clearDisplay, State.construct, List.map_replicate]

theorem pixel_construct (p : Params) (l : Launch) (x y : Nat) :
    (State.construct p l).pixel x y = false := by
  rw [← clearDisplay_construct, pixel_clearDisplay]

/-- Settles O49: memory has no listed byte and the display is a cleared one. -/
theorem constructionLeavesThePowerOnState : Obligations.ConstructionLeavesThePowerOnState := by
  rintro p l s rfl
  exact ⟨fun _ => rfl, pixel_construct p l, rfl, rfl, rfl, rfl, rfl, rfl, rfl, rfl⟩

/-- Settles O50: `reset()` is one write of pc, and ROM_START fits pc. -/
theorem resetSetsOnlyPc : Obligations.ResetSetsOnlyPc := by
  rintro s t hinv rfl
  obtain ⟨hrom, hmem, -, -⟩ := Params.bounds_of_wf hinv.params
  refine ⟨?_, rfl⟩
  change (BitVec.ofNat 16 s.params.romStart).toNat = s.params.romStart
  rw [BitVec.toNat_ofNat]
  exact Nat.mod_eq_of_lt (by omega)

/-! ### The first step without `reset()` (70_reset_and_hazards.md R184) -/

/-- A core at pc 0 whose first two bytes are 0 raises OpcodeNotSupported(0x0000), with pc at 2. -/
theorem step_of_zero_word {s : State} (hf : s.fault = none) (hstopped : s.timerRunning = false)
    (hpc : s.pc = 0) (hmem : 2 ≤ s.params.memSize) (h0 : s.readByte 0 = 0) (h1 : s.readByte 1 = 0) :
    step s = raise (.opcodeNotSupported 0x0000#16) (s.setPc 0x0002#16) := by
  have hpc0 : s.pc.toNat = 0 := by rw [hpc]; rfl
  have hfetch : fetch s = .ok 0x0000#16 := by
    rw [fetch_ok (by omega), hpc0, h0, h1]
    rfl
  have hadvanced : s.advancePc = s.setPc 0x0002#16 := by
    rw [State.advancePc, hpc]
    rfl
  calc step s
      = advance s := by rw [step, deliverTicks_stopped hstopped]
    _ = raise (.opcodeNotSupported 0x0000#16) s.advancePc :=
        advance_of_illegal hf hfetch (by decide)
    _ = _ := by rw [hadvanced]

theorem step_construct {p : Params} (l : Launch) (hmem : 2 ≤ p.memSize) :
    step (State.construct p l) =
      raise (.opcodeNotSupported 0x0000#16) ((State.construct p l).setPc 0x0002#16) :=
  step_of_zero_word rfl rfl rfl hmem rfl rfl

/-- An image past the two bytes the first fetch reads leaves the first step as it was. -/
theorem Leaves.step_of_loadRom {p : Params} {l : Launch} {bytes : List Byte} {t : State}
    (h : Leaves (State.construct p l) (.loadRom bytes) t) (hmem : 2 ≤ p.memSize)
    (hrom : 2 ≤ p.romStart) :
    step t = raise (.opcodeNotSupported 0x0000#16) (t.setPc 0x0002#16) := by
  cases h
  case unchanged => exact step_construct l hmem
  case loadRom fits =>
    have hsize : 2 ≤ (storeBytes p.romStart bytes (State.construct p l)).params.memSize := by
      rwa [storeBytes_params]
    have hzero : ∀ a < 2, (storeBytes p.romStart bytes (State.construct p l)).readByte a = 0 :=
      fun a ha => readByte_storeBytes_other (.inl (Nat.lt_of_lt_of_le ha hrom))
    exact step_of_zero_word (storeBytes_fault _ bytes _) (storeBytes_timerRunning _ bytes _)
      (storeBytes_pc _ bytes _) hsize (hzero 0 (by decide)) (hzero 1 (by decide))

/-- Settles O51: by `step_construct`, and after a load by the cases of `Leaves`. -/
theorem advanceBeforeResetFaults : Obligations.AdvanceBeforeResetFaults := by
  intro p l hmem
  refine ⟨step_construct l hmem, ?_⟩
  rintro bytes s hrom rfl
  exact (transact_leaves (.loadRom bytes) _).step_of_loadRom hmem hrom

/-! ### Errors and refusals (60_exceptions.md R159, R166) -/

/-- A response that is an error or a refusal. -/
def Response.rejects : Response → Bool
  | .error _ => true
  | .refused => true
  | _ => false

theorem reportCycle_rejects {s : State} {r : Result} (h : (reportCycle s r).2.rejects = true) :
    (reportCycle s r).1 = s := by
  cases r with
  | refused q => rfl
  | next t => cases h
  | fault f => cases h

theorem loadRom_rejects {bytes : List Byte} {s : State} (h : (loadRom bytes s).2.rejects = true) :
    (loadRom bytes s).1 = s := by
  unfold loadRom at h ⊢
  split_ifs at h ⊢
  · rfl
  · rfl
  · cases h

theorem hostSetByte_rejects {a : Nat} {v : Byte} {s : State}
    (h : (hostSetByte a v s).2.rejects = true) : (hostSetByte a v s).1 = s := by
  unfold hostSetByte at h ⊢
  split at h
  · cases h
  · rfl

theorem hostSetV_rejects {n : Nat} {v : Byte} {s : State} (h : (hostSetV n v s).2.rejects = true) :
    (hostSetV n v s).1 = s := by
  unfold hostSetV at h ⊢
  split at h
  · rfl
  · cases h

theorem hostSetPixel_rejects {x y : Nat} {b : Bool} {s : State}
    (h : (hostSetPixel x y b s).2.rejects = true) : (hostSetPixel x y b s).1 = s := by
  unfold hostSetPixel at h ⊢
  split_ifs at h ⊢
  · cases h
  · rfl

theorem hostSetSeed_rejects {seed : Nat} {s : State} (h : (hostSetSeed seed s).2.rejects = true) :
    (hostSetSeed seed s).1 = s := by
  unfold hostSetSeed at h ⊢
  split_ifs at h ⊢
  · cases h
  · rfl

/-- The transactions that only answer leave the state whatever they answer. -/
theorem hostGetByte_state (a : Nat) (s : State) : (hostGetByte a s).1 = s := by
  unfold hostGetByte
  split <;> rfl

theorem hostGetV_state (n : Nat) (s : State) : (hostGetV n s).1 = s := by
  unfold hostGetV
  split <;> rfl

theorem hostGetPixel_state (x y : Nat) (s : State) : (hostGetPixel x y s).1 = s := by
  unfold hostGetPixel
  split <;> rfl

theorem hostFetch_state (s : State) : (hostFetch s).1 = s := by
  unfold hostFetch
  split <;> rfl

/-- A transaction that answers an error or is refused leaves the state. -/
theorem transact_rejects {c : HostCall} {s : State} (h : (transact c s).2.rejects = true) :
    (transact c s).1 = s := by
  cases c
  case loadRom => exact loadRom_rejects h
  case getMemoryByte a => exact hostGetByte_state a s
  case setMemoryByte => exact hostSetByte_rejects h
  case getV n => exact hostGetV_state n s
  case setV => exact hostSetV_rejects h
  case getFlag => exact hostGetV_state 15 s
  case setFlag => exact hostSetV_rejects h
  case getPixel x y => exact hostGetPixel_state x y s
  case setPixel => exact hostSetPixel_rejects h
  case advance => exact reportCycle_rejects h
  case fetchInstruction => exact hostFetch_state s
  case decode => exact reportCycle_rejects h
  case setSeed => exact hostSetSeed_rejects h
  all_goals cases h

theorem hostFetch_of_ok {s : State} {op : Word} (h : fetch s = .ok op) :
    hostFetch s = (s, .word op) := by
  rw [hostFetch, h]

theorem hostFetch_of_error {s : State} {a : Nat} (h : fetch s = .error a) :
    hostFetch s = (s, .error (.addressOutOfRange a)) := by
  rw [hostFetch, h]

/-- Settles O52: by `transact_rejects`, and `fetch_instruction` reports the fetch. -/
theorem errorResponsesChangeNoState : Obligations.ErrorResponsesChangeNoState :=
  fun _ _ => ⟨fun _ h => transact_rejects (congrArg Response.rejects h),
    fun h => transact_rejects (congrArg Response.rejects h), fun _ => hostFetch_of_ok,
    fun _ => hostFetch_of_error⟩

/-! ### load_rom (60_exceptions.md R161) -/

theorem loadRom_of_fits {bytes : List Byte} {s : State} (h : imageFits s.params bytes = true) :
    loadRom bytes s = (storeBytes s.params.romStart bytes s, .truth true) := by
  simp only [imageFits, Bool.and_eq_true, decide_eq_true_eq] at h
  rw [loadRom, if_neg h.1, if_neg (Nat.not_lt.mpr h.2)]

theorem loadRom_of_too_large {bytes : List Byte} {s : State} (hinv : s.Inv)
    (h : s.params.memSize < s.params.romStart + bytes.length) :
    loadRom bytes s = (s, .error .romTooLarge) := by
  obtain ⟨hrom, -⟩ := Params.bounds_of_wf hinv.params
  have hne : bytes ≠ [] := by
    rintro rfl
    rw [List.length_nil] at h
    omega
  rw [loadRom, if_neg hne, if_pos h]

/-- Settles O53: an image that fits is a store of its bytes at ROM_START. -/
theorem loadRomCopiesTheImage : Obligations.LoadRomCopiesTheImage := by
  intro bytes s hinv
  refine ⟨fun hempty => if_pos hempty, loadRom_of_too_large hinv, fun hfits => ?_⟩
  exact ⟨_, loadRom_of_fits hfits, fun k hk => readByte_storeBytes hinv.memCanonical _ bytes hk,
    fun a ha => readByte_storeBytes_other ha, storeBytes_eq _ bytes s⟩

/-! ### The memory port (60_exceptions.md R162) -/

theorem hostGetByte_of_lt {s : State} {a : Nat} (h : a < s.params.memSize) :
    hostGetByte a s = (s, .byte (s.readByte a)) := by
  rw [hostGetByte, memRead_ok h]

theorem hostGetByte_of_le {s : State} {a : Nat} (h : s.params.memSize ≤ a) :
    hostGetByte a s = (s, .error (.addressOutOfRange a)) := by
  rw [hostGetByte, memRead_error h]

theorem hostSetByte_of_lt {s : State} {a : Nat} (v : Byte) (h : a < s.params.memSize) :
    hostSetByte a v s = (s.writeByte a v, .done) := by
  rw [hostSetByte, memWrite_ok v h]

theorem hostSetByte_of_le {s : State} {a : Nat} (v : Byte) (h : s.params.memSize ≤ a) :
    hostSetByte a v s = (s, .error (.addressOutOfRange a)) := by
  rw [hostSetByte, memWrite_error v h]

/-- Settles O54: the port is the checked read and write of one byte. -/
theorem memoryPortReadsAndWrites : Obligations.MemoryPortReadsAndWrites := by
  intro a v s hinv
  refine ⟨fun h => ⟨hostGetByte_of_lt h, _, hostSetByte_of_lt v h, ?_, fun c hc => ?_, rfl⟩,
    fun h => ⟨hostGetByte_of_le h, hostSetByte_of_le v h⟩⟩
  · rw [State.readByte_writeByte hinv.memCanonical, if_pos rfl]
  · exact State.readByte_writeByte_other s v hc

/-! ### The pixel port (60_exceptions.md R165) -/

theorem onScreen_iff {s : State} {x y : Nat} :
    s.onScreen x y = true ↔ x < s.params.width ∧ y < s.params.height := by
  simp only [State.onScreen, Bool.and_eq_true, decide_eq_true_eq]

/-- Settles O57: the port is the read and write of one pixel, where `onScreen` holds. -/
theorem pixelPortReadsAndWrites : Obligations.PixelPortReadsAndWrites := by
  intro x y b s hinv
  refine ⟨fun h => ?_, fun h => ?_, rfl⟩
  · have hon := onScreen_iff.mpr h
    have hpixel := pixel_setPixel hinv.gridShape h.1 h.2 b
    refine ⟨if_pos hon, s.setPixel x y b, if_pos hon, ?_, fun px py hother => ?_, rfl⟩
    · exact (hpixel x y).trans (if_pos ⟨rfl, rfl⟩)
    · exact (hpixel px py).trans (if_neg hother)
  · have hoff := mt onScreen_iff.mp h
    exact ⟨if_neg hoff, if_neg hoff⟩

/-! ### The display as text (60_exceptions.md R171) -/

section Pieces

variable {α β : Type} {f : α → List β} {l : List α} {w : Nat}

/-- Pieces of one length, laid end to end. -/
theorem length_flatMap_of_length (h : ∀ a ∈ l, (f a).length = w) :
    (l.flatMap f).length = l.length * w := by
  rw [List.length_flatMap, List.map_congr_left h, List.map_const', List.sum_replicate, smul_eq_mul]

/-- The x-th element of the y-th piece. -/
theorem getElem?_flatMap_of_length (h : ∀ a ∈ l, (f a).length = w) {x y : Nat} (hx : x < w)
    (hy : y < l.length) : (l.flatMap f)[y * w + x]? = (f l[y])[x]? := by
  induction l generalizing y with
  | nil => cases hy
  | cons a l ih =>
    have ha : (f a).length = w := h a List.mem_cons_self
    rw [List.flatMap_cons]
    cases y with
    | zero => rw [List.getElem?_append_left (by omega), Nat.zero_mul, Nat.zero_add]; rfl
    | succ y =>
      have hskip : (y + 1) * w + x = (f a).length + (y * w + x) := by rw [ha]; ring
      rw [hskip, List.getElem?_append_right (by omega), Nat.add_sub_cancel_left]
      exact ih (fun b hb => h b (List.mem_cons_of_mem a hb)) (Nat.lt_of_succ_lt_succ hy)

end Pieces

@[simp] theorem rowText_length (row : List Bool) : (rowText row).length = row.length + 1 := by
  simp [rowText]

/-- A row's text ends with its newline. -/
theorem rowText_newline (row : List Bool) : (rowText row)[row.length]? = some '\n' := by
  simp [rowText]

theorem rowText_pixel {row : List Bool} {x : Nat} (h : x < row.length) :
    (rowText row)[x]? = some (if row[x] then 'X' else ' ') := by
  rw [rowText, List.getElem?_append_left (by simpa using h), List.getElem?_map,
    List.getElem?_eq_getElem h, Option.map_some]

/-- A pixel inside the grid is the bit its row holds. -/
theorem pixel_eq_getElem {s : State} {x y : Nat} (hy : y < s.D.length) (hx : x < s.D[y].length) :
    s.pixel x y = s.D[y][x] := by
  rw [State.pixel, List.getD_eq_getElem _ _ hy, List.getD_eq_getElem _ _ hx]

/-- Settles O59: the text is the rows' texts, each W + 1 characters long. -/
theorem displayStrShowsEveryPixel : Obligations.DisplayStrShowsEveryPixel := by
  intro s hinv
  have hrow : ∀ row ∈ s.D, (rowText row).length = s.params.width + 1 := fun row hmem => by
    rw [rowText_length, hinv.columns row hmem]
  refine ⟨displayText s, rfl, ?_, fun y hy => ?_⟩
  · rw [displayText, length_flatMap_of_length hrow, hinv.rows]
  · have hyD : y < s.D.length := hinv.rows.symm ▸ hy
    have hlen : s.D[y].length = s.params.width := hinv.columns _ (List.getElem_mem hyD)
    refine ⟨?_, fun x hx => ?_⟩
    · rw [displayText, getElem?_flatMap_of_length hrow (Nat.lt_succ_self _) hyD, ← hlen,
        rowText_newline]
    · have hxD : x < s.D[y].length := hlen.symm ▸ hx
      rw [displayText, getElem?_flatMap_of_length hrow (by omega) hyD, rowText_pixel hxD,
        pixel_eq_getElem hyD hxD]

end Sys2Proof.Machine
end
